-- ==== Sys2Proof/Word.lean ====
section
/-! DEFINITION. The words of the block: the 16-bit packed word, the 64-bit working mantissa, and the
working value (m, e). -/

namespace Sys2Proof

/-- A word of a packed number, and the control word: 16 bits (00_scope.md R13, 10_state.md R21). -/
abbrev Word := BitVec 16

/-- The exponent byte of a packed number (40_codec.md R63). -/
abbrev ExpByte := BitVec 8

/-- The working mantissa: W = 64 bits, two's complement (00_scope.md R8). A value outside
[−2^63, 2^63) cannot be written in it (10_state.md R30). -/
abbrev Mantissa := BitVec 64

/-- A working value (m, e): m a two's-complement mantissa, e an unbounded integer exponent. It denotes
m × 2^(e−63) (00_scope.md R8, R11, R14). -/
structure Working where
  m : Mantissa
  e : Int
  deriving DecidableEq, Repr

/-- The mantissa as the integer it denotes (00_scope.md R14). -/
def Working.mi (x : Working) : Int := x.m.toInt

/-- The zero working value (0, 0). -/
def Working.zero : Working := ⟨0#64, 0⟩

end Sys2Proof
end

