-- ==== Sys2Proof/Syntax.lean ====
section
/-! DEFINITION. The instructions: one constructor for each row of spec/opcode_table.json. -/

namespace Sys2Proof

/-- The precision classes: single, extended (the normative 3-word class) and double
(00_scope.md R9, 30_encoding.md R53). PREC = 11 names no class. -/
inductive Prec where
  | f
  | x
  | t
  deriving DecidableEq, Repr

/-- The functions of 30_encoding.md R52, each with the fields every control word carries: the precision
class P and the expanded-exponent bit XE. Some functions ignore one or both (R53, R54); the word has
them all the same. -/
inductive Instr where
  | unpk (p : Prec) (xe : Bool)
  | pack (p : Prec) (xe : Bool)
  | norm (p : Prec) (xe : Bool)
  | rnd  (p : Prec) (xe : Bool)
  | add  (p : Prec) (xe : Bool)
  | sub  (p : Prec) (xe : Bool)
  | mpy  (p : Prec) (xe : Bool)
  | div  (p : Prec) (xe : Bool)
  | cmpl (p : Prec) (xe : Bool)
  | trnc (p : Prec) (xe : Bool)
  | clro (p : Prec) (xe : Bool)
  deriving DecidableEq, Repr

/-- The precision class an instruction carries. -/
def Instr.prec : Instr → Prec
  | .unpk p _ => p
  | .pack p _ => p
  | .norm p _ => p
  | .rnd p _ => p
  | .add p _ => p
  | .sub p _ => p
  | .mpy p _ => p
  | .div p _ => p
  | .cmpl p _ => p
  | .trnc p _ => p
  | .clro p _ => p

/-- The expanded-exponent bit an instruction carries. -/
def Instr.xe : Instr → Bool
  | .unpk _ xe => xe
  | .pack _ xe => xe
  | .norm _ xe => xe
  | .rnd _ xe => xe
  | .add _ xe => xe
  | .sub _ xe => xe
  | .mpy _ xe => xe
  | .div _ xe => xe
  | .cmpl _ xe => xe
  | .trnc _ xe => xe
  | .clro _ xe => xe

end Sys2Proof
end

