-- ==== Sys2Proof/WellFormed.lean ====
section
/-! DEFINITION. Which control words are legal: the four fields of a word and the three checks of
30_encoding.md R56. A term of Instr is legal by its type (Prec has no fourth class and Instr no twelfth
function), so the checks are on the fields of a word. -/

namespace Sys2Proof

/-- The fields of a control word (30_encoding.md R51). -/
structure Fields where
  rsv  : BitVec 9
  xe   : BitVec 1
  prec : BitVec 2
  fn   : BitVec 4
  deriving DecidableEq, Repr

/-- CW[15:7], CW[6], CW[5:4] and CW[3:0] of a control word (30_encoding.md R51). -/
def Fields.ofWord (w : Word) : Fields :=
  ⟨w.extractLsb' 7 9, w.extractLsb' 6 1, w.extractLsb' 4 2, w.extractLsb' 0 4⟩

/-- RSV must be zero (30_encoding.md R55). -/
def Fields.rsvOk (f : Fields) : Bool := f.rsv == 0

/-- PREC = 11 is reserved (30_encoding.md R53). -/
def Fields.precOk (f : Fields) : Bool := f.prec != 3

/-- FN = B to F are reserved (30_encoding.md R52). -/
def Fields.fnOk (f : Fields) : Bool := decide (f.fn.toNat ≤ 0xA)

/-- A legal control word: one of the 66 values of 30_encoding.md R57. -/
def Fields.wellFormed (f : Fields) : Bool := f.rsvOk && f.precOk && f.fnOk

end Sys2Proof
end

