-- ==== Sys2Proof/Decode.lean ====
section
/-! DEFINITION. The decoder of the 16-bit control word, total on every word and rejecting by name, and
the encoder (30_encoding.md R51 to R57). -/

namespace Sys2Proof

/-- Why a control word is unimplemented, in the order 30_encoding.md R56 tests. -/
inductive Reject where
  /-- CW[15:7] is not zero (R55). -/
  | reservedBits
  /-- CW[5:4] = 11 (R53). -/
  | reservedPrec
  /-- CW[3:0] is B to F (R52). -/
  | reservedFn
  deriving DecidableEq, Repr

/-- The class of a PREC field (30_encoding.md R53). -/
def decodePrec (v : BitVec 2) : Option Prec :=
  match v.toNat with
  | 0 => some .f
  | 1 => some .x
  | 2 => some .t
  | _ => none

/-- The function of an FN field (30_encoding.md R52). -/
def decodeFn (fn : BitVec 4) (p : Prec) (xe : Bool) : Option Instr :=
  match fn.toNat with
  | 0x0 => some (.unpk p xe)
  | 0x1 => some (.pack p xe)
  | 0x2 => some (.norm p xe)
  | 0x3 => some (.rnd p xe)
  | 0x4 => some (.add p xe)
  | 0x5 => some (.sub p xe)
  | 0x6 => some (.mpy p xe)
  | 0x7 => some (.div p xe)
  | 0x8 => some (.cmpl p xe)
  | 0x9 => some (.trnc p xe)
  | 0xA => some (.clro p xe)
  | _   => none

/-- The decoder, total on all 2^16 control words (30_encoding.md R56). A rejected word is UNIMPL. -/
def decode (w : Word) : Except Reject Instr :=
  if w.extractLsb' 7 9 ≠ 0 then .error .reservedBits
  else
    match decodePrec (w.extractLsb' 4 2) with
    | none => .error .reservedPrec
    | some p =>
      match decodeFn (w.extractLsb' 0 4) p (w.getLsbD 6) with
      | none => .error .reservedFn
      | some i => .ok i

/-- The PREC field of a class (30_encoding.md R53). -/
def encodePrec : Prec → Nat
  | .f => 0
  | .x => 1
  | .t => 2

/-- The FN field of an instruction (30_encoding.md R52). -/
def encodeFn : Instr → Nat
  | .unpk _ _ => 0x0
  | .pack _ _ => 0x1
  | .norm _ _ => 0x2
  | .rnd _ _ => 0x3
  | .add _ _ => 0x4
  | .sub _ _ => 0x5
  | .mpy _ _ => 0x6
  | .div _ _ => 0x7
  | .cmpl _ _ => 0x8
  | .trnc _ _ => 0x9
  | .clro _ _ => 0xA

/-- The control word of an instruction: CW = XE·0x40 + PREC·0x10 + FN (30_encoding.md R57). -/
def encode (i : Instr) : Word :=
  BitVec.ofNat 16 ((if i.xe then 0x40 else 0) + encodePrec i.prec * 0x10 + encodeFn i)

/-- The instruction the decoder reads from the bits w of a row's word, numbered as
spec/opcode_table.json numbers them: bit 0 is the least significant bit of the one control word. There
is no byte order (20_memory.md R44) and no second word (30_encoding.md R51), so bits at or above
min nbits 16 spell no instruction. -/
def decodeTableWord (nbits w : Nat) : Option Instr :=
  if w < 2 ^ min nbits 16 then (decode (BitVec.ofNat 16 w)).toOption else none

end Sys2Proof
end

