-- ==== Sys2Proof/Config.lean ====
section
/-! DEFINITION. The one value the spec leaves open and a model takes as a parameter. -/

namespace Sys2Proof

/-- XE_PACK (40_codec.md R73, 00_scope.md R12): the exponent byte the codec writes under XE = 1 for a
rounded exponent in −512..−129 or 128..511. The spec gives nothing for it ("a named open parameter"),
so it has no body here and no proof can know a value of it (log entry 4). -/
opaque Config.xePack : Int → BitVec 8

end Sys2Proof
end

