-- ==== Sys2Proof/Machine/Bits.lean ====
section
/-! DEFINITION. The notation of 00_scope.md R13, R14 and R16: fields, floor division, the arithmetic
shift, sign extension and the rotations, on mathematical integers. -/

namespace Sys2Proof.Machine

/-- fdiv(a, b): floor division, rounding toward −∞ (00_scope.md R14). Every use has a positive divisor,
where Lean's integer division is the floor. -/
def fdiv (a b : Int) : Int := a / b

/-- asr(m, d) = fdiv(m, 2^d), the arithmetic right shift (00_scope.md R14). -/
def asr (m : Int) (d : Nat) : Int := fdiv m (2 ^ d)

/-- sext_N(v): the N-bit pattern v read as two's complement (00_scope.md R13). -/
def sext (n v : Nat) : Int := if 2 ^ (n - 1) ≤ v then (v : Int) - 2 ^ n else v

/-- bits_N(x): the N-bit pattern of the integer x, x mod 2^N (00_scope.md R13). -/
def bits (n : Nat) (x : Int) : Nat := (x % 2 ^ n).toNat

/-- rotl8: rotate an 8-bit pattern left by one (00_scope.md R16). -/
def rotl8 (v : ExpByte) : ExpByte := (v <<< 1) ||| (v >>> 7)

/-- rotr8: rotate an 8-bit pattern right by one (00_scope.md R16). -/
def rotr8 (v : ExpByte) : ExpByte := (v >>> 1) ||| (v <<< 7)

/-- The working value whose mantissa is the 64-bit pattern of m. Each rule shows that the m it yields lies
in [−2^63, 2^63) (00_scope.md R14), so nothing is lost where a rule's result is narrowed by it. -/
def narrow (m e : Int) : Working := ⟨BitVec.ofInt 64 m, e⟩

end Sys2Proof.Machine
end

