-- ==== Sys2Proof/Machine/State.lean ====
section
/-! DEFINITION. The state of the FPAU: the flag O and the ports, as plain data, the state after reset,
and the reasons a step can stop. -/

namespace Sys2Proof.Machine

/-- The overflow flag O (10_state.md R19) with the value the spec gives it at reset: "unwritten until the
first CLRO" (R20, 70_reset_and_hazards.md R153). -/
inductive OFlag where
  /-- No CLRO has been performed since reset. -/
  | unwritten
  /-- The flag holds this bit. -/
  | written (v : Bool)
  deriving DecidableEq, Repr

/-- The four values of the status port ST (10_state.md R27). -/
inductive Status where
  | value
  | overflow
  | underflow
  | unimpl
  deriving DecidableEq, Repr

/-- The ports that can be undriven (00_scope.md R15). -/
inductive PortName where
  | a
  | b
  | pi
  | y
  | po
  | st
  deriving DecidableEq, Repr

/-- The whole state. A port that holds no value is `none` (00_scope.md R15, "undriven"); PI is the list
of the words driven on it, word 0 first. The FPAU has no register, no program counter and no memory
(10_state.md R18, R32); OV is a view of `o` (R28). -/
structure State where
  /-- O, the one bit of architectural state (10_state.md R18, R19). -/
  o  : OFlag
  /-- CW, the control word of the transaction presented, if one is (10_state.md R21, R29). -/
  cw : Option Word
  /-- A, the first operand (10_state.md R22). -/
  a  : Option Working
  /-- B, the second operand (10_state.md R23). -/
  b  : Option Working
  /-- PI, the packed operand, most significant word first (10_state.md R24). -/
  pi : List Word
  /-- Y, the working result (10_state.md R25). -/
  y  : Option Working
  /-- PO, the packed result, most significant word first (10_state.md R26). -/
  po : Option (List Word)
  /-- ST, the status (10_state.md R27). -/
  st : Option Status
  deriving DecidableEq, Repr

/-- The faults the spec asks of a model. The block itself never traps (60_exceptions.md R138). -/
inductive Fault where
  /-- Raised by a transaction that reads an operand port the host left undriven, and by the host's read
  of an undriven output port (00_scope.md R15, 93 I2). Safe: it stops where no value exists. -/
  | undrivenPort (p : PortName)
  /-- Raised by a finishing function's O update, and by the host's read of OV, before the first CLRO
  (10_state.md R20, 70_reset_and_hazards.md R154, 93 I3). Safe: the spec asks for this stop. -/
  | overflowFlagUnwritten
  deriving DecidableEq, Repr

/-- The refusals. -/
inductive Refusal where
  /-- An instruction with no meaning yet. No arm of exec answers it. Safe. -/
  | notModelled (mnemonic : String)
  /-- Raised when the host presents an integer mantissa outside [−2^63, 2^63), which spells no operand
  (10_state.md R30, 93 I11). Safe. -/
  | mantissaOutOfRange
  deriving DecidableEq, Repr

/-- The machine right after reset (70_reset_and_hazards.md R153): O unwritten, every output undriven, and
no transaction presented. -/
def State.reset : State where
  o  := .unwritten
  cw := none
  a  := none
  b  := none
  pi := []
  y  := none
  po := none
  st := none

end Sys2Proof.Machine
end

