-- ==== Sys2Proof/Machine/Operands.lean ====
section
/-! DEFINITION. The parameters of the precision classes and of XE, and the operand forms: the reads of
the operand ports A, B and PI, the driving of the input ports, and the host's reads of the output ports. -/

namespace Sys2Proof.Machine

/-- n_P: the words of a packed number of class P (00_scope.md R9). -/
def nWords : Prec → Nat
  | .f => 2
  | .x => 3
  | .t => 4

/-- M_P: the retained mantissa width, sign included (00_scope.md R9). -/
def keptBits : Prec → Nat
  | .f => 24
  | .x => 40
  | .t => 56

/-- K_P = W − M_P: the discarded bits (00_scope.md R9). -/
def dropBits (p : Prec) : Nat := 64 - keptBits p

/-- H_P = 2^(K_P − 1): the rounding half-unit (00_scope.md R9). -/
def halfUnit (p : Prec) : Int := 2 ^ (dropBits p - 1)

/-- E_MIN: −128, or −512 with XE (00_scope.md R10). -/
def eMin (xe : Bool) : Int := if xe then -512 else -128

/-- E_MAX: +127, or +511 with XE (00_scope.md R10). -/
def eMax (xe : Bool) : Int := if xe then 511 else 127

/-- The outcome of one transaction. -/
abbrev Result := Host.Outcome State Fault Refusal

/-- Read port A (10_state.md R22); a read of an undriven port is a fault, never a value (00_scope.md R15). -/
def withA (s : State) (k : Working → Result) : Result :=
  match s.a with
  | some a => k a
  | none => .fault (.undrivenPort .a)

/-- Read port B (10_state.md R23, 00_scope.md R15). -/
def withB (s : State) (k : Working → Result) : Result :=
  match s.b with
  | some b => k b
  | none => .fault (.undrivenPort .b)

/-- Read PI[0] to PI[n_P − 1] (10_state.md R24). A word of these that the host left undriven is a fault
(00_scope.md R15); words beyond them are not read (log entry 3). -/
def withPI (p : Prec) (s : State) (k : List Word → Result) : Result :=
  if nWords p ≤ s.pi.length then k (s.pi.take (nWords p)) else .fault (.undrivenPort .pi)

/-- What the host drives for one transaction: CW together with the inputs the function reads
(10_state.md R29). A port it does not drive is undriven. -/
structure Transaction where
  cw : Word
  a  : Option Working := none
  b  : Option Working := none
  pi : List Word := []
  deriving DecidableEq, Repr

/-- The host drives the input ports (10_state.md R29). The outputs hold until the transaction is
performed, and O is untouched. -/
def present (t : Transaction) (s : State) : State :=
  { s with cw := some t.cw, a := t.a, b := t.b, pi := t.pi }

/-- Whether an integer is a mantissa: −2^63 ≤ m < 2^63 (10_state.md R22, R30). -/
def mantissaOk (m : Int) : Bool := decide (-2 ^ 63 ≤ m ∧ m < 2 ^ 63)

/-- The host drives port A with an integer pair. A mantissa out of range spells no operand and is refused
at the port; every integer is a legal exponent (10_state.md R30). -/
def presentA (m e : Int) (s : State) : Result :=
  if mantissaOk m then .next { s with a := some (narrow m e) } else .refused .mantissaOutOfRange

/-- The host drives port B with an integer pair, as presentA does port A (10_state.md R23, R30). -/
def presentB (m e : Int) (s : State) : Result :=
  if mantissaOk m then .next { s with b := some (narrow m e) } else .refused .mantissaOutOfRange

/-- The host's read of Y, a fault when undriven (00_scope.md R15, 93 I2). -/
def readY (s : State) : Except Fault Working :=
  match s.y with
  | some y => .ok y
  | none => .error (.undrivenPort .y)

/-- The host's read of PO, a fault when undriven (00_scope.md R15, 93 I2). -/
def readPO (s : State) : Except Fault (List Word) :=
  match s.po with
  | some ws => .ok ws
  | none => .error (.undrivenPort .po)

/-- The host's read of ST, a fault before the first transaction (00_scope.md R15, 70_reset_and_hazards.md R153). -/
def readST (s : State) : Except Fault Status :=
  match s.st with
  | some st => .ok st
  | none => .error (.undrivenPort .st)

/-- The host's read of OV, which always shows O (10_state.md R28); before the first CLRO it is a fault
(R20, 92_eei_decisions.md D19, 93_implementation_defined.md I3). -/
def readOV (s : State) : Except Fault Bool :=
  match s.o with
  | .written v => .ok v
  | .unwritten => .error .overflowFlagUnwritten

end Sys2Proof.Machine
end

