-- ==== Sys2Proof/Machine/Flags.lean ====
section
/-! DEFINITION. The overflow flag's update and the status codes. -/

namespace Sys2Proof.Machine

/-- ST = OVERFLOW or ST = UNDERFLOW: what a finishing function ORs into O (10_state.md R19, 60_exceptions.md R142). -/
def raisesO : Status → Bool
  | .overflow => true
  | .underflow => true
  | .value => false
  | .unimpl => false

/-- O <- O or f (10_state.md R19). The update faults while O is unwritten (R20: a model "must fault"; 92_eei_decisions.md D19,
93_implementation_defined.md I3). -/
def withOrO (s : State) (f : Bool) (k : OFlag → Result) : Result :=
  match s.o with
  | .written v => k (.written (v || f))
  | .unwritten => .fault .overflowFlagUnwritten

/-- The numeric codes of ST (60_exceptions.md R143). -/
def statusCode : Status → Nat
  | .value => 0
  | .overflow => 1
  | .underflow => 2
  | .unimpl => 3

end Sys2Proof.Machine
end

