-- ==== Sys2Proof/Machine/Ops.lean ====
section
/-! DEFINITION. The shared operations: normalize and round, the packed-format codec, the pack step, how a
transaction completes, the unimplemented control word, and the fetch of CW. -/

namespace Sys2Proof.Machine

/-! ## Normalize and round (41_normalize_round.md) -/

/-- The loop of normalize: while the top two bits are equal, double the mantissa and decrement the
exponent (41_normalize_round.md R81). -/
def fpNormalizeLoop : Nat → Mantissa → Int → Working
  | 0, m, e => ⟨m, e⟩
  | n + 1, m, e => if m.getLsbD 63 = m.getLsbD 62 then fpNormalizeLoop n (m <<< 1) (e - 1) else ⟨m, e⟩

/-- normalize: a zero mantissa gives (0, 0); else the loop, which runs at most 63 times
(41_normalize_round.md R81). -/
def fpNormalize (x : Working) : Working :=
  if x.m = 0#64 then Working.zero else fpNormalizeLoop 63 x.m x.e

/-- round_P (41_normalize_round.md R82): normalize, add H_P (positive) or H_P − 1 (negative), and
renormalize. The discarded bits keep what the addition left there. -/
def fpRound (p : Prec) (x : Working) : Working :=
  let n := fpNormalize x
  if n.m = 0#64 then Working.zero
  else if 0 ≤ n.mi then
    let t := n.mi + halfUnit p
    if 2 ^ 63 ≤ t then narrow (fdiv t 2) (n.e + 1) else fpNormalize (narrow t n.e)
  else
    fpNormalize (narrow (n.mi + (halfUnit p - 1)) n.e)

/-- clear_P: set the discarded bits to zero (40_codec.md R67). -/
def fpClear (p : Prec) (x : Working) : Working :=
  narrow (asr x.mi (dropBits p) * 2 ^ dropBits p) x.e

/-! ## The packed format (40_codec.md) -/

/-- enc8: the exponent byte of an exponent in −128..127, two's complement rotated left by one
(40_codec.md R65). -/
def enc8 (e : Int) : ExpByte := rotl8 (BitVec.ofInt 8 e)

/-- dec8: the exponent of a byte (40_codec.md R65). -/
def dec8 (b : ExpByte) : Int := (rotr8 b).toInt

/-- The concatenation w[0] ++ w[1] ++ … as a number, w[0] in the high-order position (40_codec.md R63). -/
def joinWords (ws : List Word) : Nat := ws.foldl (fun acc w => acc * 2 ^ 16 + w.toNat) 0

/-- The n words of a 16n-bit pattern, the most significant first (40_codec.md R63). -/
def splitWords (n pb : Nat) : List Word :=
  (List.range n).map fun i => BitVec.ofNat 16 (pb / 2 ^ (16 * (n - 1 - i)))

/-- The mantissa field MF = PB[16n−1 : 8] of packed words (40_codec.md R63). -/
def mantField (ws : List Word) : Nat := joinWords ws / 2 ^ 8

/-- The exponent byte EB = PB[7:0] of packed words (40_codec.md R63). -/
def expField (ws : List Word) : ExpByte := BitVec.ofNat 8 (joinWords ws)

/-- unpack_P: the mantissa field left-justified and sign-extended, and the decoded exponent byte
(40_codec.md R64). It does not normalize and does not clean a zero. -/
def fpUnpack (p : Prec) (ws : List Word) : Working :=
  narrow (sext (keptBits p) (mantField ws) * 2 ^ dropBits p) (dec8 (expField ws))

/-- The exponent byte of encode_P: enc8 in −128..127, else the open parameter XE_PACK (40_codec.md R68, R73). -/
def expByte (e : Int) : ExpByte :=
  if -128 ≤ e ∧ e ≤ 127 then enc8 e else Config.xePack e

/-- encode_P: the words of MF ++ EB, MF the retained field of the mantissa (40_codec.md R68). -/
def fpEncode (p : Prec) (m e : Int) : List Word :=
  splitWords (nWords p) (bits (keptBits p) (asr m (dropBits p)) * 2 ^ 8 + (expByte e).toNat)

/-- zeros(n_P): the all-zero pattern (40_codec.md R68, R72). -/
def zeroWords (p : Prec) : List Word := List.replicate (nWords p) 0

/-- sentinel_P: the working mantissa of the signed-infinity sentinel, true for negative (40_codec.md R70). -/
def sentinel (p : Prec) (negative : Bool) : Int :=
  if negative then -2 ^ 63 else (2 ^ (keptBits p - 1) - 1) * 2 ^ dropBits p

/-- What the pack step yields: the words, the status, and the rounded working value before clearing
(40_codec.md R68). -/
structure Packed where
  words : List Word
  st    : Status
  r     : Working
  deriving DecidableEq, Repr

/-- pack_{P,XE} (40_codec.md R68): round, then test zero, underflow and overflow in that order. -/
def fpPack (p : Prec) (xe : Bool) (x : Working) : Packed :=
  let r := fpRound p x
  if r.m = 0#64 then ⟨zeroWords p, .value, r⟩
  else if r.e < eMin xe then ⟨zeroWords p, .underflow, r⟩
  else if eMax xe < r.e then ⟨fpEncode p (sentinel p (decide (r.mi < 0))) (eMax xe), .overflow, r⟩
  else ⟨fpEncode p r.mi r.e, .value, r⟩

/-! ## How a transaction completes (10_state.md R29, R31) -/

/-- Drive every output of a transaction and write O. A port given `none` is undriven for this
transaction; the input ports are the host's and stay (10_state.md R29). -/
def drive (s : State) (o : OFlag) (y : Option Working) (po : Option (List Word)) (st : Status) : State :=
  { s with o := o, y := y, po := po, st := some st }

/-- A transaction with no range check: Y driven, PO undriven, ST = VALUE, O unchanged (10_state.md R31, the
rows UNPK, NORM and RND). -/
def completeValue (s : State) (y : Working) : Result :=
  .next (drive s s.o (some y) none .value)

/-- A transaction that ends in the pack step of x ("fin" in 10_state.md R31): PO and ST are those of
pack_{P,XE}(x), Y is as given, and O <- O or (ST = OVERFLOW or ST = UNDERFLOW) (R19). -/
def completePacked (s : State) (k : Packed) (y : Working) : Result :=
  withOrO s (raisesO k.st) fun o => .next (drive s o (some y) (some k.words) k.st)

/-- A finishing arithmetic function: Y is the unrounded result, packed by pack_{P,XE} (10_state.md R31). -/
def finish (p : Prec) (xe : Bool) (s : State) (y : Working) : Result :=
  completePacked s (fpPack p xe y) y

/-- An UNIMPL control word: ST = UNIMPL, Y and PO undriven, O unchanged, no input read
(60_exceptions.md R144). The block does not halt. -/
def unimplemented (s : State) : State := drive s s.o none none .unimpl

/-! ## The fetch of the control word -/

/-- The control word of the transaction the host presents, if it presents one (10_state.md R21, R29). -/
def fetchWord (s : State) : Option Word := s.cw

/-- O after the CLRO that the host issues first in every top-level opcode (70_reset_and_hazards.md R156), where
none has been issued yet. -/
def bootO : OFlag → OFlag
  | .unwritten => .written false
  | .written v => .written v

/-- The host presents the control word w for its next transaction, after the boot CLRO of
70_reset_and_hazards.md R156 where none was issued: an operand port that is not driven gets the zero operand
(10_state.md R23 "operands may be zero-valued"), and PI zero words up to four (log entry 6). -/
def presentForRun (s : State) (w : Word) : State :=
  { s with
    cw := some w
    o := bootO s.o
    a := some (s.a.getD Working.zero)
    b := some (s.b.getD Working.zero)
    pi := s.pi ++ List.replicate (4 - s.pi.length) 0 }

end Sys2Proof.Machine
end

