-- ==== Sys2Proof/Machine/AddSub.lean ====
section
/-! DEFINITION. The adder, the subtracter and the complementer: ADD, SUB and CMPL (42_add_sub.md). -/

namespace Sys2Proof.Machine

/-- The sum of two aligned mantissas at exponent e: on overflow of the 64-bit range, shift right by one and
increment the exponent (42_add_sub.md R91, R92). -/
def addAligned (ma mb e : Int) : Working :=
  let s := ma + mb
  if 2 ^ 63 ≤ s ∨ s < -2 ^ 63 then narrow (fdiv s 2) (e + 1) else narrow s e

/-- add_P (42_add_sub.md R91): the zero identities, the alignment limit M_P + 1, the alignment shift of the
operand with the smaller exponent, and the sum. -/
def fpAdd (p : Prec) (a b : Working) : Working :=
  if a.m = 0#64 then b
  else if b.m = 0#64 then a
  else
    let d := a.e - b.e
    if (keptBits p : Int) + 1 < d then a
    else if d < -((keptBits p : Int) + 1) then b
    else if 0 ≤ d then addAligned a.mi (asr b.mi d.toNat) a.e
    else addAligned (asr a.mi (-d).toNat) b.mi b.e

/-- cmpl: negate the mantissa; −2^63 becomes (2^62, e + 1); zero keeps its exponent (42_add_sub.md R99). -/
def fpCmpl (x : Working) : Working :=
  if x.mi = -2 ^ 63 then narrow (2 ^ 62) (x.e + 1) else narrow (-x.mi) x.e

/-- ADD: Y <- add_P(A, B), finishing (42_add_sub.md R93). -/
def execAdd (p : Prec) (xe : Bool) (s : State) : Result :=
  withA s fun a => withB s fun b => finish p xe s (fpAdd p a b)

/-- SUB: Y <- add_P(A, cmpl(B)), finishing (42_add_sub.md R96, R97). -/
def execSub (p : Prec) (xe : Bool) (s : State) : Result :=
  withA s fun a => withB s fun b => finish p xe s (fpAdd p a (fpCmpl b))

/-- CMPL: Y <- cmpl(A), finishing (42_add_sub.md R100). -/
def execCmpl (p : Prec) (xe : Bool) (s : State) : Result :=
  withA s fun a => finish p xe s (fpCmpl a)

end Sys2Proof.Machine
end

