-- ==== Sys2Proof/Machine/Codec.lean ====
section
/-! DEFINITION. The codec instructions UNPK and PACK (40_codec.md). -/

namespace Sys2Proof.Machine

/-- UNPK: Y <- unpack_P(PI), ST = VALUE; XE is ignored (40_codec.md R66). -/
def execUnpk (p : Prec) (s : State) : Result :=
  withPI p s fun ws => completeValue s (fpUnpack p ws)

/-- PACK: (PO, st, r) <- pack_{P,XE}(A), Y <- clear_P(r), O accumulated (40_codec.md R69). -/
def execPack (p : Prec) (xe : Bool) (s : State) : Result :=
  withA s fun a => completePacked s (fpPack p xe a) (fpClear p (fpPack p xe a).r)

end Sys2Proof.Machine
end

