-- ==== Sys2Proof/Machine/Control.lean ====
section
/-! DEFINITION. The control function CLRO (46_control.md). -/

namespace Sys2Proof.Machine

/-- CLRO: O <- 0, ST = VALUE, Y and PO undriven; no port is read, PREC and XE are ignored
(46_control.md R134). -/
def execClro (s : State) : Result :=
  .next (drive s (.written false) none none .value)

end Sys2Proof.Machine
end

