-- ==== Sys2Proof/Machine/Divide.lean ====
section
/-! DEFINITION. The iteratively corrected divider: DIV (44_divide.md). -/

namespace Sys2Proof.Machine

/-- The correction loop of divstep: while R < 0, q <- q − 1 and R <- R + B, at most n times
(44_divide.md R118). -/
def divCorrect : Nat → Int → Int → Int → Int × Int
  | 0, q, r, _ => (q, r)
  | n + 1, q, r, b => if r < 0 then divCorrect n (q - 1) (r + b) b else (q, r)

/-- divstep: the coarse quotient by the divisor's high half, its remainder, the correction term q·Bl, and
the correction loop, which "runs at most 8 times" on the magnitudes R116 yields (44_divide.md R118, log entry 7). -/
def divStep (a b : Int) : Int × Int :=
  let bh := fdiv b (2 ^ 32)
  let bl := b % 2 ^ 32
  let q := fdiv a bh
  let r := a - q * bh
  divCorrect 8 q (r * 2 ^ 32 - q * bl) b

/-- divide_and_correct: two partial quotients, the second from the corrected remainder, merged and scaled
to 2^62 (44_divide.md R118). -/
def divideAndCorrect (a b : Int) : Int :=
  let s1 := divStep a b
  let s2 := divStep s1.2 b
  fdiv (s1.1 * 2 ^ 32 + s2.1) 4

/-- div_{P,XE} (44_divide.md R116): a zero dividend first, then a zero divisor (the sentinel of the
dividend's sign at E_MAX + 1), else the quotient of the normalized operands at ea − eb + 1. -/
def fpDiv (p : Prec) (xe : Bool) (a b : Working) : Working :=
  if a.m = 0#64 then Working.zero
  else if b.m = 0#64 then narrow (sentinel p (decide (a.mi < 0))) (eMax xe + 1)
  else
    let na := fpNormalize a
    let nb := fpNormalize b
    let negative := xor (decide (na.mi < 0)) (decide (nb.mi < 0))
    let q := divideAndCorrect na.mi.natAbs nb.mi.natAbs
    narrow (if negative then -q else q) (na.e - nb.e + 1)

/-- DIV: Y <- div_{P,XE}(A, B), finishing (44_divide.md R120). -/
def execDiv (p : Prec) (xe : Bool) (s : State) : Result :=
  withA s fun a => withB s fun b => finish p xe s (fpDiv p xe a b)

end Sys2Proof.Machine
end

