-- ==== Sys2Proof/Machine/Multiply.lean ====
section
/-! DEFINITION. The split-operand multiplier: MPY (43_multiply.md). -/

namespace Sys2Proof.Machine

/-- split_product: four half-width products and the exact carry term c of their low parts
(43_multiply.md R107). -/
def splitProduct (a b : Nat) : Nat :=
  let ah := a / 2 ^ 32
  let al := a % 2 ^ 32
  let bh := b / 2 ^ 32
  let bl := b % 2 ^ 32
  let hh := ah * bh
  let hl := ah * bl
  let lh := al * bh
  let ll := al * bl
  let c := (hl % 2 ^ 32 + lh % 2 ^ 32 + ll / 2 ^ 32) / 2 ^ 32
  hh + hl / 2 ^ 32 + lh / 2 ^ 32 + c

/-- mul: zero times anything is (0, 0); else the truncated product of the magnitudes with the combined
sign, at exponent ea + eb + 1. The operands are not normalized (43_multiply.md R106). -/
def fpMul (a b : Working) : Working :=
  if a.m = 0#64 ∨ b.m = 0#64 then Working.zero
  else
    let negative := xor (decide (a.mi < 0)) (decide (b.mi < 0))
    let p : Int := splitProduct a.mi.natAbs b.mi.natAbs
    narrow (if negative then -p else p) (a.e + b.e + 1)

/-- MPY: Y <- mul(A, B), finishing (43_multiply.md R108). -/
def execMpy (p : Prec) (xe : Bool) (s : State) : Result :=
  withA s fun a => withB s fun b => finish p xe s (fpMul a b)

end Sys2Proof.Machine
end

