-- ==== Sys2Proof/Machine/NormRound.lean ====
section
/-! DEFINITION. The instructions NORM and RND (41_normalize_round.md). -/

namespace Sys2Proof.Machine

/-- NORM: Y <- normalize(A), ST = VALUE; P and XE are ignored (41_normalize_round.md R85). -/
def execNorm (s : State) : Result :=
  withA s fun a => completeValue s (fpNormalize a)

/-- RND: Y <- clear_P(round_P(A)), ST = VALUE, no range check; XE is ignored (41_normalize_round.md R86). -/
def execRnd (p : Prec) (s : State) : Result :=
  withA s fun a => completeValue s (fpClear p (fpRound p a))

end Sys2Proof.Machine
end

