-- ==== Sys2Proof/Machine/Truncate.lean ====
section
/-! DEFINITION. Truncate toward zero: TRNC (45_truncate.md). -/

namespace Sys2Proof.Machine

/-- trunc (45_truncate.md R128): e ≤ 0 gives (0, 0), also for (−2^63, 0) (R130); e ≥ 63 is unchanged; else the
63 − e fractional bits are masked off, and a negative value that lost bits gets one integer unit back. -/
def fpTrunc (x : Working) : Working :=
  if x.e ≤ 0 then Working.zero
  else if 63 ≤ x.e then x
  else
    let k := (63 - x.e).toNat
    let low := x.mi % 2 ^ k
    let mm := x.mi - low
    narrow (if x.mi < 0 ∧ low ≠ 0 then mm + 2 ^ k else mm) x.e

/-- TRNC: Y <- trunc(A), finishing (45_truncate.md R129). -/
def execTrnc (p : Prec) (xe : Bool) (s : State) : Result :=
  withA s fun a => finish p xe s (fpTrunc a)

end Sys2Proof.Machine
end

