-- ==== Sys2Proof/Machine/Dispatch.lean ====
section
/-! DEFINITION. One arm for each constructor of Instr, each a direct call of its meaning. -/

namespace Sys2Proof.Machine

def exec (i : Instr) (s : State) : Host.Outcome State Fault Refusal :=
  match i with
  | .unpk p _ => Sys2Proof.Machine.execUnpk p s
  | .pack p xe => Sys2Proof.Machine.execPack p xe s
  | .norm _ _ => Sys2Proof.Machine.execNorm s
  | .rnd p _ => Sys2Proof.Machine.execRnd p s
  | .add p xe => Sys2Proof.Machine.execAdd p xe s
  | .sub p xe => Sys2Proof.Machine.execSub p xe s
  | .mpy p xe => Sys2Proof.Machine.execMpy p xe s
  | .div p xe => Sys2Proof.Machine.execDiv p xe s
  | .cmpl p xe => Sys2Proof.Machine.execCmpl p xe s
  | .trnc p xe => Sys2Proof.Machine.execTrnc p xe s
  | .clro _ _ => Sys2Proof.Machine.execClro s

end Sys2Proof.Machine
end

