-- ==== Sys2Proof/Machine/Step.lean ====
section
/-! DEFINITION. One step: the transaction the host presents, performed whole. -/

namespace Sys2Proof.Machine

/-- One step is one transaction (10_state.md R29): the control word on CW is decoded, and the function it
selects is performed; a word that does not decode is UNIMPL (30_encoding.md R56, 60_exceptions.md R144).
Where no transaction is presented every port holds its value (10_state.md R29, log entry 2). -/
def step (s : State) : Host.Outcome State Fault Refusal :=
  match fetchWord s with
  | none => .next s
  | some w =>
    match decode w with
    | .ok i => exec i s
    | .error _ => .next (unimplemented s)

/-- s with the instruction whose bits are w presented as its next transaction, so that `step` performs
exactly it (log entry 6). The FPAU fetches no instruction (20_memory.md R50): the host presents CW. -/
def State.withFetchWord (s : State) (nbits w : Nat) : State :=
  presentForRun s (BitVec.ofNat 16 (w % 2 ^ nbits))

end Sys2Proof.Machine
end

