-- ==== Sys2Proof/Machine/HostMemory.lean ====
section
/-! DEFINITION. The host's word memory (20_memory.md). The FPAU has no memory port (R41): nothing here is
part of State or of step. It serves the host contract of 70_reset_and_hazards.md. -/

namespace Sys2Proof.Machine

/-- The host parameters the spec leaves open: VA_BITS, the width of a virtual address (20_memory.md R42), and
INDIRECT_BIT, the addressing bit of an address word (R43). -/
structure HostParams where
  vaBits : Nat
  indirectBit : Nat
  deriving DecidableEq, Repr

/-- Why a host operation stops. The spec names none of these: the host is out of its scope. -/
inductive HostStop where
  /-- A word nothing has written is read: the source gives no contents of memory. Safe. -/
  | unwrittenMemory (addr : Nat)
  /-- The FPAU model faulted on a transaction the host issued. Safe. -/
  | fpauFault (f : Fault)
  /-- The FPAU model refused a transaction the host issued. Safe. -/
  | fpauRefusal (r : Refusal)
  /-- A result of three or four words is directed to the two one-word registers; the spec does not say
  what happens. Safe. -/
  | registersTooShort (p : Prec)
  /-- A chain's list ends without its no-operation sentinel (70_reset_and_hazards.md R158 has it "terminated by
  an explicit sentinel"). Safe. -/
  | chainUnterminated
  /-- A chain set holds an operation or conversion code that no entry of the host's tables lists: the condition
  60_exceptions.md R144 has reported to the surrounding CPU as a stop. Safe. -/
  | unimplementedCode (w : Word)
  deriving DecidableEq, Repr

/-- The host's memory: address and 16-bit word pairs, the smallest unit being the word (20_memory.md R44).
Canonical form: addresses strictly rising (memWf). An address not listed holds no value (log entry 11). -/
abbrev HostMemory := List (Nat × Word)

/-- The canonical form: addresses strictly rising. -/
def memWf : HostMemory → Bool
  | [] => true
  | (_, _) :: [] => true
  | (k, _) :: (k', w') :: rest => decide (k < k') && memWf ((k', w') :: rest)

/-- readWord, `MemRead(addr, 1)` (20_memory.md R41). -/
def readWord : HostMemory → Nat → Option Word
  | [], _ => none
  | (k, w) :: rest, a => if k = a then some w else readWord rest a

/-- writeWord, `MemWrite(addr, 1, w)` (20_memory.md R41), keeping the canonical form. -/
def writeWord : HostMemory → Nat → Word → HostMemory
  | [], a, w => [(a, w)]
  | (k, v) :: rest, a, w =>
    if a < k then (a, w) :: (k, v) :: rest
    else if a = k then (a, w) :: rest
    else (k, v) :: writeWord rest a w

/-- The virtual address of word i of an operand at base (20_memory.md R45), within VA_BITS (log entry 12). -/
def wordAddr (prm : HostParams) (base i : Nat) : Nat := (base + i) % 2 ^ prm.vaBits

/-- Read the word at place i from base as data, `MemRead` (20_memory.md R41, R50). -/
def readWordAt (prm : HostParams) (mem : HostMemory) (base i : Nat) : Except HostStop Word :=
  match readWord mem (wordAddr prm base i) with
  | none => .error (.unwrittenMemory (wordAddr prm base i))
  | some w => .ok w

/-- Read n consecutive words, one access each, in ascending address order (20_memory.md R45, R47). -/
def readWords (prm : HostParams) (mem : HostMemory) (base : Nat) : Nat → Nat → Except HostStop (List Word)
  | _, 0 => .ok []
  | i, n + 1 =>
    match readWordAt prm mem base i with
    | .error e => .error e
    | .ok w =>
      match readWords prm mem base (i + 1) n with
      | .error e => .error e
      | .ok ws => .ok (w :: ws)

/-- Write words to consecutive addresses, one access each, in ascending address order (20_memory.md R45, R47). -/
def writeWords (prm : HostParams) (mem : HostMemory) (base : Nat) : Nat → List Word → HostMemory
  | _, [] => mem
  | i, w :: ws => writeWords prm (writeWord mem (wordAddr prm base i) w) base (i + 1) ws

/-- The address an address word carries: its bits but the addressing bit, within VA_BITS (log entry 12). -/
def addrOf (prm : HostParams) (w : Word) : Nat :=
  (w &&& ~~~ (1#16 <<< prm.indirectBit)).toNat % 2 ^ prm.vaBits

/-- The effective address of an address word: one level of indirection if its addressing bit is set
(20_memory.md R43, which says so of an operand's address word; of a result's it is log entry 19's choice). -/
def effectiveAddr (prm : HostParams) (mem : HostMemory) (w : Word) : Except HostStop Nat :=
  if w.getLsbD prm.indirectBit then
    match readWord mem (addrOf prm w) with
    | none => .error (.unwrittenMemory (addrOf prm w))
    | some ptr => .ok (addrOf prm ptr)
  else .ok (addrOf prm w)

end Sys2Proof.Machine
end

