-- ==== Sys2Proof/Machine/HostContract.lean ====
section
/-! DEFINITION. The host contract of 70_reset_and_hazards.md R155 to R160, over the FPAU's step: what a
conforming host does with the block. It binds the host, not the FPAU (R155), and State and step do not
use it. -/

namespace Sys2Proof.Machine

/-- The host with its FPAU: the state 10_state.md R35 lists for a model of the host. There is no reset of it:
the spec gives none. -/
structure HostState where
  /-- The FPAU the host drives. -/
  fpau : State
  /-- The host's memory (20_memory.md R41). -/
  mem : HostMemory
  /-- The Accumulator of class F (10_state.md R35, 90_conflicts.md C4: one for each class). -/
  accF : Working
  /-- The Accumulator of class X. -/
  accX : Working
  /-- The Accumulator of class T. -/
  accT : Working
  /-- The first short general register (10_state.md R32, R35). -/
  reg0 : Word
  /-- The second short general register. -/
  reg1 : Word
  /-- The bit of the CPU status word that takes OV after each opcode (10_state.md R28, R35). -/
  statusOv : Bool
  /-- Whether the expand-exponent modifier is active (10_state.md R35, 70_reset_and_hazards.md R159). -/
  modifier : Bool
  deriving DecidableEq, Repr

/-- The Accumulator of a class (10_state.md R35). -/
def getAcc (h : HostState) : Prec → Working
  | .f => h.accF
  | .x => h.accX
  | .t => h.accT

/-- Write the Accumulator of a class (10_state.md R35). -/
def setAcc (h : HostState) (p : Prec) (v : Working) : HostState :=
  match p with
  | .f => { h with accF := v }
  | .x => { h with accX := v }
  | .t => { h with accT := v }

/-- The host issues one transaction (10_state.md R29). -/
def issue (t : Transaction) (h : HostState) : Except HostStop HostState :=
  match step (present t h.fpau) with
  | .next s => .ok { h with fpau := s }
  | .fault f => .error (.fpauFault f)
  | .refused r => .error (.fpauRefusal r)

/-- The transaction of an instruction on its operands. -/
def transaction (i : Instr) (a b : Option Working) (pi : List Word) : Transaction :=
  ⟨encode i, a, b, pi⟩

/-- The host reads Y (00_scope.md R15). -/
def hostY (h : HostState) : Except HostStop Working :=
  match readY h.fpau with
  | .ok y => .ok y
  | .error f => .error (.fpauFault f)

/-- The host reads PO (00_scope.md R15). -/
def hostPO (h : HostState) : Except HostStop (List Word) :=
  match readPO h.fpau with
  | .ok ws => .ok ws
  | .error f => .error (.fpauFault f)

/-- The arithmetic opcodes' functions. The source numbers no opcode (91 N9), so an opcode is its function. -/
inductive ArithOp where
  | add
  | sub
  | mpy
  | div
  | cmpl
  | trnc
  deriving DecidableEq, Repr

/-- The FPAU function of an arithmetic opcode (30_encoding.md R52). -/
def arithInstr : ArithOp → Prec → Bool → Instr
  | .add => .add
  | .sub => .sub
  | .mpy => .mpy
  | .div => .div
  | .cmpl => .cmpl
  | .trnc => .trnc

/-- Whether the opcode takes a second operand (10_state.md R23). -/
def isBinary : ArithOp → Bool
  | .add => true
  | .sub => true
  | .mpy => true
  | .div => true
  | .cmpl => false
  | .trnc => false

/-- An operand slot: the class's Accumulator, or an address word (70_reset_and_hazards.md R157). -/
inductive OperandRef where
  | accumulator
  | memory (addr : Word)
  deriving DecidableEq, Repr

/-- Where a result goes: an address word, or the fixed result registers (70_reset_and_hazards.md R157). -/
inductive ResultRef where
  | memory (addr : Word)
  | registers
  deriving DecidableEq, Repr

/-- Fetch and unpack an operand: n_P words in ascending order, presented to UNPK, Y being the operand; or
the Accumulator of the class, with no fetch (70_reset_and_hazards.md R157). -/
def fetchOperand (prm : HostParams) (p : Prec) (r : OperandRef) (h : HostState) :
    Except HostStop (Working × HostState) :=
  match r with
  | .accumulator => .ok (getAcc h p, h)
  | .memory w => do
    let base ← effectiveAddr prm h.mem w
    let ws ← readWords prm h.mem base 0 (nWords p)
    let h' ← issue (transaction (.unpk p false) none none ws) h
    let y ← hostY h'
    pure (y, h')

/-- Fetch the second operand of an opcode that has one (10_state.md R23). -/
def fetchSecond (prm : HostParams) (op : ArithOp) (p : Prec) (r : OperandRef) (h : HostState) :
    Except HostStop (Option Working × HostState) :=
  if isBinary op then do
    let (b, h') ← fetchOperand prm p r h
    pure (some b, h')
  else pure (none, h)

/-- Store packed words at an address word's effective address, in ascending order
(70_reset_and_hazards.md R157, 20_memory.md R47). DESIGN CHOICE, unsafe (log entry 19): R43 and R157 state the one level
of indirection for operands; the model follows a result address word's addressing bit the same way. -/
def storeWords (prm : HostParams) (addr : Word) (po : List Word) (h : HostState) :
    Except HostStop HostState := do
  let base ← effectiveAddr prm h.mem addr
  pure { h with mem := writeWords prm h.mem base 0 po }

/-- Write PO back to the designated memory operand or to the fixed result registers
(70_reset_and_hazards.md R157). The two registers hold a two-word result (DESIGN CHOICE, log entry 13); the memory
operand's address word may be indirect (DESIGN CHOICE, log entry 19). -/
def writeBack (prm : HostParams) (p : Prec) (dest : ResultRef) (po : List Word) (h : HostState) :
    Except HostStop HostState :=
  match dest with
  | .memory addr => storeWords prm addr po h
  | .registers =>
    match p with
    | .f => .ok { h with reg0 := po.getD 0 0, reg1 := po.getD 1 0 }
    | .x => .error (.registersTooShort .x)
    | .t => .error (.registersTooShort .t)

/-- Execute an arithmetic function on the host's operands and keep unpack_P(PO) as the new Accumulator value
(70_reset_and_hazards.md R157); XE is the modifier's (R159). -/
def executeArith (op : ArithOp) (p : Prec) (a : Working) (b : Option Working) (h : HostState) :
    Except HostStop (List Word × HostState) := do
  let h' ← issue (transaction (arithInstr op p h.modifier) (some a) b []) h
  let po ← hostPO h'
  pure (po, setAcc h' p (fpUnpack p po))

/-- The start of a top-level opcode: CLRO is its first transaction (70_reset_and_hazards.md R156). -/
def beginOpcode (h : HostState) : Except HostStop HostState :=
  issue (transaction (.clro .x false) none none []) h

/-- The end of a top-level opcode: OV is copied to the host's status word (70_reset_and_hazards.md R156), and the
modifier, which widens exactly one opcode, is cleared (R159). -/
def endOpcode (h : HostState) : Except HostStop HostState :=
  match readOV h.fpau with
  | .ok v => .ok { h with statusOv := v, modifier := false }
  | .error f => .error (.fpauFault f)

/-- One top-level arithmetic opcode on address words already read (arithOpcodeAt reads them from memory): CLRO,
fetch, execute, write back, copy OV (70_reset_and_hazards.md R156, R157, R159). -/
def arithOpcode (prm : HostParams) (op : ArithOp) (p : Prec) (r1 r2 : OperandRef) (dest : ResultRef)
    (h : HostState) : Except HostStop HostState := do
  let h ← beginOpcode h
  let (a, h) ← fetchOperand prm p r1 h
  let (b, h) ← fetchSecond prm op p r2 h
  let (po, h) ← executeArith op p a b h
  let h ← writeBack prm p dest po h
  endOpcode h

/-- The expand-exponent modifier: XE is set for one following arithmetic opcode, and no control word is
issued; a second modifier while one is active is reported as an unimplemented opcode, `none`
(70_reset_and_hazards.md R159). -/
def expandExponent (h : HostState) : Option HostState :=
  if h.modifier then none else some { h with modifier := true }

/-- One set of a chained-execution opcode (70_reset_and_hazards.md R158). `op = none` is the no-operation sentinel;
a word count of zero means the Accumulator (operands) or no store (result). -/
structure ChainSet where
  op          : Option (ArithOp × Prec)
  count1      : Nat := 0
  addr1       : Word := 0
  count2      : Nat := 0
  addr2       : Word := 0
  convert     : Option Prec := none
  resultCount : Nat := 0
  resultAddr  : Word := 0
  deriving DecidableEq, Repr

/-- The two returns of the chained engine (70_reset_and_hazards.md R158, R160). -/
inductive ChainReturn where
  | good
  | error
  deriving DecidableEq, Repr

/-- A declared word count that is neither zero nor n_P of the operation's class; zero declares no words: "use
accumulator", or "retain in accumulator, do not store" (70_reset_and_hazards.md R158). -/
def countMismatch (p : Prec) (n : Nat) : Bool := n != 0 && n != nWords p

/-- The precision mismatch of a set: any of its three declared word counts differs from n_P of the operation's class,
whether or not the operation reads a second operand or a conversion follows (70_reset_and_hazards.md R158, "a declared
word-count differs from n_P of the operation's class"; 60_exceptions.md R146). -/
def setMismatch (p : Prec) (c : ChainSet) : Bool :=
  countMismatch p c.count1 || countMismatch p c.count2 || countMismatch p c.resultCount

/-- The operand a count and an address declare: "use accumulator" if the count is zero
(70_reset_and_hazards.md R158). -/
def chainOperand (count : Nat) (addr : Word) : OperandRef :=
  if count = 0 then .accumulator else .memory addr

/-- The optional conversion of the freshly computed accumulator value, before any store: PACK with the
target class's PREC (70_reset_and_hazards.md R158). -/
def convertResult (p : Prec) (target : Option Prec) (po : List Word) (h : HostState) :
    Except HostStop (List Word × HostState) :=
  match target with
  | none => .ok (po, h)
  | some q => do
    let h' ← issue (transaction (.pack q h.modifier) (some (getAcc h p)) none []) h
    let po' ← hostPO h'
    pure (po', setAcc h' q (fpUnpack q po'))

/-- The optional store of a set's result; a zero count retains it in the Accumulator only
(70_reset_and_hazards.md R158). Its address word may be indirect, by storeWords (DESIGN CHOICE, unsafe, log entry 19:
20_memory.md R43 says so of operands only). The words stored are PO's: after a conversion n of the target class, though
the count R158 has the set declare is that of the operation's class (DESIGN CHOICE, unsafe, log entry 13). -/
def storeResult (prm : HostParams) (c : ChainSet) (po : List Word) (h : HostState) :
    Except HostStop HostState :=
  if c.resultCount = 0 then .ok h else storeWords prm c.resultAddr po h

/-- Run one set that is no sentinel and has no mismatch (70_reset_and_hazards.md R158). -/
def runSet (prm : HostParams) (op : ArithOp) (p : Prec) (c : ChainSet) (h : HostState) :
    Except HostStop HostState := do
  let (a, h) ← fetchOperand prm p (chainOperand c.count1 c.addr1) h
  let (b, h) ← fetchSecond prm op p (chainOperand c.count2 c.addr2) h
  let (po, h) ← executeArith op p a b h
  let (po, h) ← convertResult p c.convert po h
  storeResult prm c po h

/-- What the chained engine does with one set: the sentinel takes the good return and a mismatch the error return,
each with no transaction; any other set runs, with no CLRO, and `none` says that the chain goes on
(70_reset_and_hazards.md R156, R158; 60_exceptions.md R146). -/
def stepSet (prm : HostParams) (c : ChainSet) (h : HostState) :
    Except HostStop (Option ChainReturn × HostState) :=
  match c.op with
  | none => .ok (some .good, h)
  | some (op, p) =>
    if setMismatch p c then .ok (some .error, h)
    else
      match runSet prm op p c h with
      | .error e => .error e
      | .ok h' => .ok (none, h')

/-- The chained engine over sets already decoded (70_reset_and_hazards.md R158). DESIGN CHOICE, unsafe (log entry 20):
the list is fixed before the first set, so no set's store can alter a later set. runChainAt (HostFetch.lean) is the
engine that reads each set from memory when it is reached, as R158 and 20_memory.md R50 say. -/
def runChain (prm : HostParams) : List ChainSet → HostState → Except HostStop (ChainReturn × HostState)
  | [], _ => .error .chainUnterminated
  | c :: cs, h =>
    match stepSet prm c h with
    | .error e => .error e
    | .ok (some ret, h') => .ok (ret, h')
    | .ok (none, h') => runChain prm cs h'

/-- One top-level chained-execution opcode over sets already decoded (log entry 20; chainOpcodeAt reads them from
memory): CLRO first, the sets, OV copied at the end (70_reset_and_hazards.md R156, R158). -/
def chainOpcode (prm : HostParams) (cs : List ChainSet) (h : HostState) :
    Except HostStop (ChainReturn × HostState) := do
  let h ← beginOpcode h
  let (ret, h) ← runChain prm cs h
  let h ← endOpcode h
  pure (ret, h)

end Sys2Proof.Machine
end

