-- ==== Sys2Proof/Machine/HostFetch.lean ====
section
/-! DEFINITION. The host reads the words that follow an opcode as data, from its memory as it stands when they are
reached, so that an earlier write to them is seen (20_memory.md R49, R50; 92_eei_decisions.md D27). Where these words
lie and what code stands for what is not in the source (91_not_in_source.md N9), so both are arguments
(log entry 20). -/

namespace Sys2Proof.Machine

/-- An opcode's operand pattern: which of its slots have an address word after the opcode. An operand slot without
one is accumulator-implied, and a result without one goes to the fixed registers (70_reset_and_hazards.md R157).
The source gives no pattern table (91_not_in_source.md N9). -/
structure OperandPattern where
  operand1 : Bool
  operand2 : Bool
  result   : Bool
  deriving DecidableEq, Repr

/-- Read an operand slot at place i after the opcode: its address word, if it has one, and the next place
(20_memory.md R50, 70_reset_and_hazards.md R157). -/
def readOperandRef (prm : HostParams) (mem : HostMemory) (base : Nat) (addressed : Bool) (i : Nat) :
    Except HostStop (OperandRef × Nat) :=
  if addressed then do
    let w ← readWordAt prm mem base i
    pure (.memory w, i + 1)
  else pure (.accumulator, i)

/-- Read the result slot at place i after the opcode (20_memory.md R50, 70_reset_and_hazards.md R157). -/
def readResultRef (prm : HostParams) (mem : HostMemory) (base : Nat) (addressed : Bool) (i : Nat) :
    Except HostStop ResultRef :=
  if addressed then do
    let w ← readWordAt prm mem base i
    pure (.memory w)
  else pure .registers

/-- One top-level arithmetic opcode whose address words start at base, the word after the opcode: they are read
from the memory this opcode finds (20_memory.md R50). DESIGN CHOICE (log entry 20): one word for each
addressed slot, in the order first operand, second operand, result. -/
def arithOpcodeAt (prm : HostParams) (op : ArithOp) (p : Prec) (pat : OperandPattern) (base : Nat)
    (h : HostState) : Except HostStop HostState := do
  let (r1, i) ← readOperandRef prm h.mem base pat.operand1 0
  let (r2, i) ← readOperandRef prm h.mem base (isBinary op && pat.operand2) i
  let dest ← readResultRef prm h.mem base pat.result i
  arithOpcode prm op p r1 r2 dest h

/-- The codes of a chained-execution opcode's sets and the place of each word in a set
(70_reset_and_hazards.md R158; values and layout not in source, 91_not_in_source.md N9). -/
structure ChainFormat where
  /-- The operation codes. -/
  operations : List (Word × ArithOp × Prec)
  /-- The no-operation sentinel. -/
  noOperation : Word
  /-- The result-precision-conversion opcodes, by their target class. -/
  conversions : List (Word × Prec)
  /-- The conversion opcode that is a no-op. -/
  noConversion : Word
  /-- The words from one set to the next. -/
  setLength : Nat
  operationAt : Nat
  count1At : Nat
  addr1At : Nat
  count2At : Nat
  addr2At : Nat
  conversionAt : Nat
  resultCountAt : Nat
  resultAddrAt : Nat
  deriving DecidableEq, Repr

/-- Read a word count and, if it is not zero, its address word (70_reset_and_hazards.md R158). -/
def readCounted (prm : HostParams) (mem : HostMemory) (base countAt addrAt : Nat) :
    Except HostStop (Nat × Word) := do
  let n ← readWordAt prm mem base countAt
  if n = 0 then pure (0, 0)
  else
    let w ← readWordAt prm mem base addrAt
    pure (n.toNat, w)

/-- Read a set's conversion opcode (70_reset_and_hazards.md R158). -/
def readConversion (prm : HostParams) (fmt : ChainFormat) (mem : HostMemory) (base : Nat) :
    Except HostStop (Option Prec) := do
  let w ← readWordAt prm mem base fmt.conversionAt
  if w = fmt.noConversion then pure none
  else
    match fmt.conversions.lookup w with
    | none => .error (.unimplementedCode w)
    | some q => pure (some q)

/-- Read the set at base as data: its operation code and, if that is not the sentinel, its other words
(70_reset_and_hazards.md R158, 20_memory.md R50). DESIGN CHOICE, unsafe (log entry 20): 60_exceptions.md R146 gives no
order between a word-count mismatch and a word the host cannot use; the set is read whole before its counts are
compared, so an unlisted conversion code or an unwritten word stops the host even in a mismatched set. -/
def readSet (prm : HostParams) (fmt : ChainFormat) (mem : HostMemory) (base : Nat) :
    Except HostStop ChainSet := do
  let code ← readWordAt prm mem base fmt.operationAt
  if code = fmt.noOperation then pure { op := none }
  else
    match fmt.operations.lookup code with
    | none => .error (.unimplementedCode code)
    | some (op, p) => do
      let (count1, addr1) ← readCounted prm mem base fmt.count1At fmt.addr1At
      let (count2, addr2) ← readCounted prm mem base fmt.count2At fmt.addr2At
      let convert ← readConversion prm fmt mem base
      let (resultCount, resultAddr) ← readCounted prm mem base fmt.resultCountAt fmt.resultAddrAt
      pure ⟨some (op, p), count1, addr1, count2, addr2, convert, resultCount, resultAddr⟩

/-- The chained engine over a list of at most `sets` sets from base: each set is read when it is reached, from the
memory the sets before it left, and the sentinel or a mismatch ends the loop
(70_reset_and_hazards.md R158; 20_memory.md R49, R50). -/
def runChainAt (prm : HostParams) (fmt : ChainFormat) :
    Nat → Nat → HostState → Except HostStop (ChainReturn × HostState)
  | 0, _, _ => .error .chainUnterminated
  | sets + 1, base, h =>
    match readSet prm fmt h.mem base with
    | .error e => .error e
    | .ok c =>
      match stepSet prm c h with
      | .error e => .error e
      | .ok (some ret, h') => .ok (ret, h')
      | .ok (none, h') => runChainAt prm fmt sets (base + fmt.setLength) h'

/-- One top-level chained-execution opcode whose sets start at base: CLRO first, the sets, OV copied at the end
(70_reset_and_hazards.md R156, R158; 20_memory.md R50). -/
def chainOpcodeAt (prm : HostParams) (fmt : ChainFormat) (sets base : Nat) (h : HostState) :
    Except HostStop (ChainReturn × HostState) := do
  let h ← beginOpcode h
  let (ret, h) ← runChainAt prm fmt sets base h
  let h ← endOpcode h
  pure (ret, h)

end Sys2Proof.Machine
end

