-- ==== Sys2Proof/Safety.lean ====
section
/-! DEFINITION. What a safe transaction is: the ports an instruction reads are driven, and O has been
written where it is updated; the terms the statements use (normalized, equal inputs); and the invariant
of the output ports. -/

namespace Sys2Proof.Machine

/-- The functions that read A (10_state.md R31). -/
def readsA : Instr → Bool
  | .unpk _ _ => false
  | .pack _ _ => true
  | .norm _ _ => true
  | .rnd _ _ => true
  | .add _ _ => true
  | .sub _ _ => true
  | .mpy _ _ => true
  | .div _ _ => true
  | .cmpl _ _ => true
  | .trnc _ _ => true
  | .clro _ _ => false

/-- The functions that read B (10_state.md R23, R31). -/
def readsB : Instr → Bool
  | .unpk _ _ => false
  | .pack _ _ => false
  | .norm _ _ => false
  | .rnd _ _ => false
  | .add _ _ => true
  | .sub _ _ => true
  | .mpy _ _ => true
  | .div _ _ => true
  | .cmpl _ _ => false
  | .trnc _ _ => false
  | .clro _ _ => false

/-- The functions that read PI (10_state.md R24, R31). -/
def readsPI : Instr → Bool
  | .unpk _ _ => true
  | .pack _ _ => false
  | .norm _ _ => false
  | .rnd _ _ => false
  | .add _ _ => false
  | .sub _ _ => false
  | .mpy _ _ => false
  | .div _ _ => false
  | .cmpl _ _ => false
  | .trnc _ _ => false
  | .clro _ _ => false

/-- The finishing functions, which drive PO and update O (10_state.md R19, R31). -/
def finishing : Instr → Bool
  | .unpk _ _ => false
  | .pack _ _ => true
  | .norm _ _ => false
  | .rnd _ _ => false
  | .add _ _ => true
  | .sub _ _ => true
  | .mpy _ _ => true
  | .div _ _ => true
  | .cmpl _ _ => true
  | .trnc _ _ => true
  | .clro _ _ => false

/-- Every input the instruction reads is driven, and O is written where it is updated
(10_state.md R20, R29, R31). -/
def Ready (i : Instr) (s : State) : Prop :=
  (readsA i = true → s.a ≠ none) ∧
  (readsB i = true → s.b ≠ none) ∧
  (readsPI i = true → nWords i.prec ≤ s.pi.length) ∧
  (finishing i = true → s.o ≠ .unwritten)

/-- A normalized working value: m ≠ 0 and m[63] ≠ m[62] (00_scope.md R17). -/
def normalized (x : Working) : Prop := x.m ≠ 0#64 ∧ x.m.getLsbD 63 ≠ x.m.getLsbD 62

/-- Packed words of class P whose mantissa field is normalized: MF[M−1] ≠ MF[M−2] (40_codec.md R74). -/
def fieldNormalized (p : Prec) (ws : List Word) : Prop :=
  (mantField ws).testBit (keptBits p - 1) ≠ (mantField ws).testBit (keptBits p - 2)

/-- The packed sentinels with XE = 0, as the table of 40_codec.md R70 lists them; true is the negative one. -/
def packedSentinel : Prec → Bool → List Word
  | .f, false => [0x7FFF, 0xFFFE]
  | .f, true => [0x8000, 0x00FE]
  | .x, false => [0x7FFF, 0xFFFF, 0xFFFE]
  | .x, true => [0x8000, 0x0000, 0x00FE]
  | .t, false => [0x7FFF, 0xFFFF, 0xFFFF, 0xFFFE]
  | .t, true => [0x8000, 0x0000, 0x0000, 0x00FE]

/-- A reserved control word: RSV ≠ 0, PREC = 11 or FN ≥ 0xB (30_encoding.md R56, 60_exceptions.md R144), on the
word's number. -/
def reservedWord (w : Word) : Prop :=
  w.toNat / 128 ≠ 0 ∨ w.toNat / 16 % 4 = 3 ∨ 0xB ≤ w.toNat % 16

/-- Two states that agree on O and on every input the instruction reads (10_state.md R31, 60_exceptions.md R150). -/
def SameInputs (i : Instr) (s t : State) : Prop :=
  s.o = t.o ∧
  (readsA i = true → s.a = t.a) ∧
  (readsB i = true → s.b = t.b) ∧
  (readsPI i = true → s.pi.take (nWords i.prec) = t.pi.take (nWords i.prec))

/-- What the output ports and O satisfy together after any transaction (10_state.md R19, R26, R31;
60_exceptions.md R139, R140, R144): a driven PO has the word count of a class and holds zero or a
normalized mantissa field, and comes with Y and a written O; an overflow or underflow status comes with
O = 1; underflow comes with zero words; UNIMPL, and no transaction yet, come with no output. -/
def PortsConsistent (s : State) : Prop :=
  (∀ ws, s.po = some ws →
    s.y ≠ none ∧ s.o ≠ .unwritten ∧
    ∃ p, ws.length = nWords p ∧ (ws = zeroWords p ∨ fieldNormalized p ws)) ∧
  (∀ st, s.st = some st → raisesO st = true → s.o = .written true ∧ s.po ≠ none) ∧
  (s.st = some .underflow → ∃ p, s.po = some (zeroWords p)) ∧
  (s.st = some .unimpl → s.y = none ∧ s.po = none) ∧
  (s.st = none → s.y = none ∧ s.po = none)

/-- A state whose presented transaction, if any, does not stop the model. -/
def SafeStep (s : State) : Prop := ∃ t, step s = .next t

end Sys2Proof.Machine
end

