-- ==== Sys2Proof/Certificates/Slice0/Obligations.lean ====
section
/-! DEFINITION. The statements for the provers, in the order of OBLIGATIONS.json. -/

open Sys2Proof Sys2Proof.Machine

/-! ## Encoding (30_encoding.md) -/

/-- Decode and encode agree on all 2^16 words: a word decodes to an instruction exactly when it is that
instruction's word CW = XE·0x40 + PREC·0x10 + FN (R51 to R57). -/
def Obligations.DecodeExactlyTheEncodedWords : Prop :=
  ∀ (w : Word) (i : Instr), decode w = .ok i ↔ encode i = w

/-- The decoder rejects a word for the first of R56's tests that it fails: RSV, then PREC, then FN. The
names of the three rejections are the model's. -/
def Obligations.DecodeRejectsByTheFirstFailedTest : Prop :=
  ∀ w : Word,
    (decode w = .error .reservedBits ↔ w.toNat / 128 ≠ 0) ∧
    (decode w = .error .reservedPrec ↔ w.toNat / 128 = 0 ∧ w.toNat / 16 % 4 = 3) ∧
    (decode w = .error .reservedFn ↔
      w.toNat / 128 = 0 ∧ w.toNat / 16 % 4 ≠ 3 ∧ 0xB ≤ w.toNat % 16)

/-- The words the spec writes out decode as it says: VE1 to VE13 of 95_test_vectors.md. -/
def Obligations.DecodeOfTheWordsWrittenOut : Prop :=
  decode 0x0010 = .ok (.unpk .x false) ∧ decode 0x0014 = .ok (.add .x false) ∧
  decode 0x0057 = .ok (.div .x true) ∧ decode 0x0006 = .ok (.mpy .f false) ∧
  decode 0x0029 = .ok (.trnc .t false) ∧ decode 0x001A = .ok (.clro .x false) ∧
  decode 0x001B = .error .reservedFn ∧ decode 0x001F = .error .reservedFn ∧
  decode 0x0034 = .error .reservedPrec ∧ decode 0x0094 = .error .reservedBits ∧
  decode 0x8014 = .error .reservedBits ∧ decode 0x0000 = .ok (.unpk .f false) ∧
  decode 0x006A = .ok (.clro .t true)

/-! ## One step, and reset -/

/-- A step performs the decoded instruction, and adds nothing around it (10_state.md R29). -/
def Obligations.StepPerformsTheDecodedInstruction : Prop :=
  ∀ (s : State) (w : Word) (i : Instr), s.cw = some w → decode w = .ok i → step s = exec i s

/-- THE MODEL'S CHOICE (log entries 2 and 6): with no transaction presented a step keeps the state, and an
instruction's word placed by withFetchWord is the one the next step performs, from every state. -/
def Obligations.IdleStepAndPlacedWord : Prop :=
  (∀ s : State, s.cw = none → step s = .next s) ∧
  (∀ (s : State) (i : Instr), step (s.withFetchWord 16 (encode i).toNat) =
    exec i (s.withFetchWord 16 (encode i).toNat)) ∧
  (∀ (s : State) (i : Instr), ∃ t, step (s.withFetchWord 16 (encode i).toNat) = .next t)

/-- A reserved control word drives ST = UNIMPL and nothing else, O is unchanged, no input is read and the
block goes on; and no decoded function ever drives UNIMPL (60_exceptions.md R144). -/
def Obligations.ReservedWordDrivesOnlyUnimpl : Prop :=
  (∀ (s : State) (w : Word), s.cw = some w → reservedWord w →
    step s = .next { s with y := none, po := none, st := some .unimpl }) ∧
  (∀ (i : Instr) (s t : State), exec i s = .next t → t.st ≠ some .unimpl)

/-- Reset: O unwritten, so OV faults and so does a finishing function's update of O; Y, PO and ST undriven
(70_reset_and_hazards.md R153). -/
def Obligations.ResetLeavesOUnwrittenAndOutputsUndriven : Prop :=
  State.reset.o = .unwritten ∧ readOV State.reset = .error .overflowFlagUnwritten ∧
  readY State.reset = .error (.undrivenPort .y) ∧ readPO State.reset = .error (.undrivenPort .po) ∧
  readST State.reset = .error (.undrivenPort .st) ∧
  (∀ (i : Instr) (a b : Working), finishing i = true →
    exec i { State.reset with a := some a, b := some b } = .fault .overflowFlagUnwritten)

/-- O is unwritten until the first CLRO: no other function and no reserved word writes it then, reading OV
faults, and a finishing function's update faults (10_state.md R20). -/
def Obligations.OIsUnwrittenUntilClro : Prop :=
  State.reset.o = .unwritten ∧
  (∀ s t : State, s.o = .unwritten → step s = .next t →
    (∀ (w : Word) (p : Prec) (xe : Bool), s.cw = some w → decode w ≠ .ok (.clro p xe)) → t.o = .unwritten) ∧
  (∀ s : State, s.o = .unwritten → readOV s = .error .overflowFlagUnwritten) ∧
  (∀ (i : Instr) (s : State), s.o = .unwritten → finishing i = true →
    (readsA i = true → s.a ≠ none) → (readsB i = true → s.b ≠ none) →
    exec i s = .fault .overflowFlagUnwritten) ∧
  (∀ (s : State) (p : Prec) (xe : Bool), ∃ t, exec (.clro p xe) s = .next t ∧ t.o = .written false)

/-- UNPK, NORM, RND and CLRO are legal before the first CLRO, and the first three leave O unwritten; a finishing
function on driven operands faults at its O update until then (70_reset_and_hazards.md R154). That UNPK also takes a PI
of more than n_P words is THE MODEL'S CHOICE (log entry 3). A unary finishing function with B undriven is
OIsUnwrittenUntilClro's. -/
def Obligations.LegalBeforeTheFirstClro : Prop :=
  ∀ (s : State) (p : Prec) (xe : Bool), s.o = .unwritten →
    (nWords p ≤ s.pi.length → ∃ t, exec (.unpk p xe) s = .next t ∧ t.o = .unwritten) ∧
    (s.a ≠ none → ∃ t, exec (.norm p xe) s = .next t ∧ t.o = .unwritten) ∧
    (s.a ≠ none → ∃ t, exec (.rnd p xe) s = .next t ∧ t.o = .unwritten) ∧
    (∃ t, exec (.clro p xe) s = .next t ∧ t.o = .written false) ∧
    (∀ i : Instr, finishing i = true → s.a ≠ none → s.b ≠ none →
      exec i s = .fault .overflowFlagUnwritten)

/-! ## What each instruction drives, with its frame: every field not named keeps its value -/

/-- UNPK drives Y = unpack_P(PI[0..n_P−1]) and ST = VALUE; PO is undriven and O unchanged; XE is ignored
(40_codec.md R66). R24 has PI carry exactly n_P words: that a longer PI is read by its first n_P words is THE MODEL'S
CHOICE (log entry 3). -/
def Obligations.UnpkDrivesTheUnpackedValue : Prop :=
  ∀ (s : State) (p : Prec) (xe : Bool), nWords p ≤ s.pi.length →
    exec (.unpk p xe) s =
      .next { s with y := some (fpUnpack p (s.pi.take (nWords p))), po := none, st := some .value }

/-- PACK drives PO and ST from pack_{P,XE}(A), Y = clear_P(round_P(A)), and accumulates O (40_codec.md R69). -/
def Obligations.PackDrivesThePackedAndClearedValue : Prop :=
  ∀ (s : State) (p : Prec) (xe : Bool) (a : Working) (v : Bool), s.a = some a → s.o = .written v →
    exec (.pack p xe) s =
      .next { s with
        o := .written (v || raisesO (fpPack p xe a).st)
        y := some (fpClear p (fpRound p a))
        po := some (fpPack p xe a).words
        st := some (fpPack p xe a).st }

/-- NORM drives Y = normalize(A), RND drives Y = clear_P(round_P(A)); ST = VALUE, PO undriven, O unchanged,
written or not (41_normalize_round.md R85, R86). -/
def Obligations.NormAndRndDriveY : Prop :=
  ∀ (s : State) (p : Prec) (xe : Bool) (a : Working), s.a = some a →
    exec (.norm p xe) s = .next { s with y := some (fpNormalize a), po := none, st := some .value } ∧
    exec (.rnd p xe) s =
      .next { s with y := some (fpClear p (fpRound p a)), po := none, st := some .value }

/-- ADD and SUB drive the unrounded Y = add_P(A, B), or add_P(A, cmpl(B)), PO and ST from its pack step, and
accumulate O (42_add_sub.md R93, R97). -/
def Obligations.AddAndSubDriveTheirResult : Prop :=
  ∀ (s : State) (p : Prec) (xe : Bool) (a b : Working) (v : Bool),
    s.a = some a → s.b = some b → s.o = .written v →
    exec (.add p xe) s =
      .next { s with
        o := .written (v || raisesO (fpPack p xe (fpAdd p a b)).st)
        y := some (fpAdd p a b)
        po := some (fpPack p xe (fpAdd p a b)).words
        st := some (fpPack p xe (fpAdd p a b)).st } ∧
    exec (.sub p xe) s =
      .next { s with
        o := .written (v || raisesO (fpPack p xe (fpAdd p a (fpCmpl b))).st)
        y := some (fpAdd p a (fpCmpl b))
        po := some (fpPack p xe (fpAdd p a (fpCmpl b))).words
        st := some (fpPack p xe (fpAdd p a (fpCmpl b))).st }

/-- MPY and DIV drive the unrounded Y = mul(A, B), or div_{P,XE}(A, B), PO and ST from its pack step, and
accumulate O (43_multiply.md R108, 44_divide.md R120). -/
def Obligations.MpyAndDivDriveTheirResult : Prop :=
  ∀ (s : State) (p : Prec) (xe : Bool) (a b : Working) (v : Bool),
    s.a = some a → s.b = some b → s.o = .written v →
    exec (.mpy p xe) s =
      .next { s with
        o := .written (v || raisesO (fpPack p xe (fpMul a b)).st)
        y := some (fpMul a b)
        po := some (fpPack p xe (fpMul a b)).words
        st := some (fpPack p xe (fpMul a b)).st } ∧
    exec (.div p xe) s =
      .next { s with
        o := .written (v || raisesO (fpPack p xe (fpDiv p xe a b)).st)
        y := some (fpDiv p xe a b)
        po := some (fpPack p xe (fpDiv p xe a b)).words
        st := some (fpPack p xe (fpDiv p xe a b)).st }

/-- CMPL and TRNC drive the unrounded Y = cmpl(A), or trunc(A), PO and ST from its pack step, and accumulate O
(42_add_sub.md R100, 45_truncate.md R129). -/
def Obligations.CmplAndTrncDriveTheirResult : Prop :=
  ∀ (s : State) (p : Prec) (xe : Bool) (a : Working) (v : Bool), s.a = some a → s.o = .written v →
    exec (.cmpl p xe) s =
      .next { s with
        o := .written (v || raisesO (fpPack p xe (fpCmpl a)).st)
        y := some (fpCmpl a)
        po := some (fpPack p xe (fpCmpl a)).words
        st := some (fpPack p xe (fpCmpl a)).st } ∧
    exec (.trnc p xe) s =
      .next { s with
        o := .written (v || raisesO (fpPack p xe (fpTrunc a)).st)
        y := some (fpTrunc a)
        po := some (fpPack p xe (fpTrunc a)).words
        st := some (fpPack p xe (fpTrunc a)).st }

/-- CLRO makes O zero from any value and from unwritten, ST = VALUE, Y and PO undriven, reads no port and
ignores PREC and XE, though PREC = 11 is still unimplemented; OV then shows 0; no other function makes O zero
where it was not; and two in a row act as one (46_control.md R134). -/
def Obligations.ClroClearsO : Prop :=
  (∀ (s : State) (p : Prec) (xe : Bool),
    exec (.clro p xe) s =
      .next { s with o := .written false, y := none, po := none, st := some .value }) ∧
  (∀ (s t : State) (p : Prec) (xe : Bool), exec (.clro p xe) s = .next t → readOV t = .ok false) ∧
  (∀ (i : Instr) (s t : State), exec i s = .next t → t.o = .written false → s.o ≠ .written false →
    ∃ p xe, i = .clro p xe) ∧
  (∀ (s t : State) (p q : Prec) (xe xe' : Bool), exec (.clro p xe) s = .next t →
    exec (.clro q xe') t = .next t) ∧
  encode (.clro .x false) = 0x001A ∧ decode 0x003A = .error .reservedPrec

/-! ## Whole-machine rules -/

/-- An instruction completes exactly when every input it reads is driven and, if it is finishing, O is written
(10_state.md R20, R29, R31; 00_scope.md R15). DEDUCED, log entry 3: an undriven operand port is a fault. THE MODEL'S
CHOICE, log entry 3: UNPK is ready on n_P words of PI or more. -/
def Obligations.CompletesExactlyWhenReady : Prop :=
  ∀ (i : Instr) (s : State), (∃ t, exec i s = .next t) ↔ Ready i s

/-- The stops and nothing more: an undriven operand port is a fault of that port, A before B before O (the order
is the model's, log entry 5), and a step never refuses, and faults only on a decoded instruction that is not
ready (00_scope.md R15, 60_exceptions.md R138). The fault on an undriven operand port is DEDUCED, and the fault on
fewer than n_P words of PI and none on more are THE MODEL'S CHOICE (log entry 3). -/
def Obligations.OnlyUndrivenOrUnwrittenStops : Prop :=
  (∀ (i : Instr) (s : State), readsA i = true → s.a = none → exec i s = .fault (.undrivenPort .a)) ∧
  (∀ (i : Instr) (s : State), readsB i = true → s.a ≠ none → s.b = none →
    exec i s = .fault (.undrivenPort .b)) ∧
  (∀ (i : Instr) (s : State), readsPI i = true → s.pi.length < nWords i.prec →
    exec i s = .fault (.undrivenPort .pi)) ∧
  (∀ (s : State) (r : Refusal), step s ≠ .refused r) ∧
  (∀ (s : State) (f : Fault), step s = .fault f →
    ∃ w i, s.cw = some w ∧ decode w = .ok i ∧ ¬ Ready i s)

/-- Which outputs a function drives, and that it leaves the input ports alone (10_state.md R31). -/
def Obligations.OutputsDrivenByEachFunction : Prop :=
  ∀ (i : Instr) (s t : State), exec i s = .next t →
    (t.y = none ↔ ∃ p xe, i = .clro p xe) ∧
    (t.po = none ↔ finishing i = false) ∧
    t.st ≠ none ∧ (finishing i = false → t.st = some .value) ∧
    t.cw = s.cw ∧ t.a = s.a ∧ t.b = s.b ∧ t.pi = s.pi

/-- O's update: a finishing function ORs in whether its status is OVERFLOW or UNDERFLOW, CLRO writes 0, and no
other operation writes O (10_state.md R19). -/
def Obligations.OAccumulatesOverflowAndUnderflow : Prop :=
  (∀ (i : Instr) (s t : State), exec i s = .next t → finishing i = true →
    ∃ v st, s.o = .written v ∧ t.st = some st ∧
      t.o = .written (v || decide (st = .overflow ∨ st = .underflow))) ∧
  (∀ (p : Prec) (xe : Bool) (s : State), ∃ t, exec (.clro p xe) s = .next t ∧ t.o = .written false) ∧
  (∀ (i : Instr) (s t : State), exec i s = .next t → finishing i = false →
    (∀ p xe, i ≠ .clro p xe) → t.o = s.o) ∧
  (∀ (s : State) (w : Word), s.cw = some w → reservedWord w → ∃ t, step s = .next t ∧ t.o = s.o)

/-- Determinism: every output and O's next value depend on CW, the inputs the function reads and O only
(60_exceptions.md R150; 10_state.md R23: a unary function does not read B). That words of PI beyond the first n_P are
no input is THE MODEL'S CHOICE (log entry 3). -/
def Obligations.OutputsDependOnlyOnInputsRead : Prop :=
  ∀ (i : Instr) (s s' t : State), SameInputs i s s' → exec i s = .next t →
    ∃ t', exec i s' = .next t' ∧ t'.o = t.o ∧ t'.y = t.y ∧ t'.po = t.po ∧ t'.st = t.st

/-- What PREC and XE do not change: nothing of NORM and CLRO, XE nothing of UNPK and RND, PREC no Y of CMPL,
MPY and TRNC (30_encoding.md R53, R54). -/
def Obligations.ClassAndXeIgnoredWhereStated : Prop :=
  ∀ (s : State) (p q : Prec) (xe xe' : Bool),
    exec (.norm p xe) s = exec (.norm q xe') s ∧
    exec (.clro p xe) s = exec (.clro q xe') s ∧
    exec (.unpk p xe) s = exec (.unpk p xe') s ∧
    exec (.rnd p xe) s = exec (.rnd p xe') s ∧
    (∀ t u, exec (.cmpl p xe) s = .next t → exec (.cmpl q xe') s = .next u → t.y = u.y) ∧
    (∀ t u, exec (.mpy p xe) s = .next t → exec (.mpy q xe') s = .next u → t.y = u.y) ∧
    (∀ t u, exec (.trnc p xe) s = .next t → exec (.trnc q xe') s = .next u → t.y = u.y)

/-- A host's integer mantissa reaches port A exactly when it lies in [−2^63, 2^63), unchanged, with any exponent;
otherwise it is refused at the port; and so for port B (10_state.md R30). -/
def Obligations.PortsTakeExactlyTheMantissasInRange : Prop :=
  ∀ (m e : Int) (s : State),
    (-2 ^ 63 ≤ m ∧ m < 2 ^ 63 →
      ∃ x : Working, x.mi = m ∧ x.e = e ∧ presentA m e s = .next { s with a := some x } ∧
        presentB m e s = .next { s with b := some x }) ∧
    (¬ (-2 ^ 63 ≤ m ∧ m < 2 ^ 63) →
      presentA m e s = .refused .mantissaOutOfRange ∧ presentB m e s = .refused .mantissaOutOfRange)

/-- INVARIANT: every step keeps the outputs and O consistent, from every state in which they are: PO is a class's
words, zero or with a normalized mantissa field; an OVERFLOW or UNDERFLOW status comes with O = 1
(10_state.md R19, R26, R31; 41_normalize_round.md R84). -/
def Obligations.StepKeepsPortsConsistent : Prop :=
  ∀ s t : State, PortsConsistent s → step s = .next t → PortsConsistent t

/-- The state after reset meets the invariant of the output ports. -/
def Obligations.ResetPortsConsistent : Prop :=
  PortsConsistent State.reset

/-! ## Codec (40_codec.md) -/

/-- The exponent byte: dec8 maps every byte into −128..127, enc8 and dec8 are inverses there, and the examples
(R65). -/
def Obligations.ExponentByteIsRotatedTwosComplement : Prop :=
  (∀ e : Int, -128 ≤ e → e ≤ 127 → dec8 (enc8 e) = e ∧ enc8 e = rotl8 (BitVec.ofInt 8 e)) ∧
  (∀ b : ExpByte, -128 ≤ dec8 b ∧ dec8 b ≤ 127 ∧ enc8 (dec8 b) = b ∧ dec8 b = (rotr8 b).toInt) ∧
  enc8 1 = 0x02 ∧ enc8 (-1) = 0xFF ∧ enc8 127 = 0xFE ∧ enc8 (-128) = 0x01 ∧ enc8 0 = 0x00 ∧
  enc8 5 = 0x0A ∧ enc8 (-127) = 0x03

/-- The layout of R63, read from the words: the first word is the signed high end of the mantissa field, the high
byte of the last word its low end, left-justified in 64 bits; the low byte of the last word is the exponent
byte (R63, R64). -/
def Obligations.UnpackReadsTheWordLayout : Prop :=
  (∀ w0 w1 : Word,
    (fpUnpack .f [w0, w1]).mi = (w0.toInt * 2 ^ 8 + w1.toNat / 2 ^ 8) * 2 ^ 40 ∧
    (fpUnpack .f [w0, w1]).e = dec8 (w1.extractLsb' 0 8)) ∧
  (∀ w0 w1 w2 : Word,
    (fpUnpack .x [w0, w1, w2]).mi =
      (w0.toInt * 2 ^ 24 + w1.toNat * 2 ^ 8 + w2.toNat / 2 ^ 8) * 2 ^ 24 ∧
    (fpUnpack .x [w0, w1, w2]).e = dec8 (w2.extractLsb' 0 8)) ∧
  (∀ w0 w1 w2 w3 : Word,
    (fpUnpack .t [w0, w1, w2, w3]).mi =
      (w0.toInt * 2 ^ 40 + w1.toNat * 2 ^ 24 + w2.toNat * 2 ^ 8 + w3.toNat / 2 ^ 8) * 2 ^ 8 ∧
    (fpUnpack .t [w0, w1, w2, w3]).e = dec8 (w3.extractLsb' 0 8))

/-- unpack: m = sext(MF) · 2^K exactly, e = dec8(EB), discarded bits zero, in range, not normalized (a stored field
comes out as stored), and the all-zero pattern gives (0, 0) (R64). -/
def Obligations.UnpackSignExtendsAndLeftJustifies : Prop :=
  (∀ (p : Prec) (ws : List Word), ws.length = nWords p →
    (fpUnpack p ws).mi = sext (keptBits p) (joinWords ws / 2 ^ 8) * 2 ^ dropBits p ∧
    (fpUnpack p ws).e = dec8 (BitVec.ofNat 8 (joinWords ws)) ∧
    (fpUnpack p ws).mi % 2 ^ dropBits p = 0 ∧
    -2 ^ 63 ≤ (fpUnpack p ws).mi ∧ (fpUnpack p ws).mi < 2 ^ 63) ∧
  (∀ p : Prec, fpUnpack p (zeroWords p) = ⟨0#64, 0⟩)

/-- The pack step: zero first, then underflow, then overflow, on the rounded value; and encode_P yields n_P words
whose mantissa field is the retained field and whose exponent byte is enc8(e), or XE_PACK(e) outside −128..127
(R68). -/
def Obligations.PackTestsZeroUnderflowOverflowThenEncodes : Prop :=
  (∀ (p : Prec) (xe : Bool) (x r : Working), fpRound p x = r →
    (fpPack p xe x).r = r ∧
    (r.mi = 0 → (fpPack p xe x).words = zeroWords p ∧ (fpPack p xe x).st = .value) ∧
    (r.mi ≠ 0 → r.e < eMin xe → (fpPack p xe x).words = zeroWords p ∧ (fpPack p xe x).st = .underflow) ∧
    (r.mi ≠ 0 → eMax xe < r.e →
      (fpPack p xe x).words = fpEncode p (sentinel p (decide (r.mi < 0))) (eMax xe) ∧
      (fpPack p xe x).st = .overflow) ∧
    (r.mi ≠ 0 → eMin xe ≤ r.e → r.e ≤ eMax xe →
      (fpPack p xe x).words = fpEncode p r.mi r.e ∧ (fpPack p xe x).st = .value)) ∧
  (∀ (p : Prec) (m e : Int), -2 ^ 63 ≤ m → m < 2 ^ 63 →
    (fpEncode p m e).length = nWords p ∧
    (mantField (fpEncode p m e) : Int) = m / 2 ^ dropBits p % 2 ^ keptBits p ∧
    expField (fpEncode p m e) = if -128 ≤ e ∧ e ≤ 127 then enc8 e else Config.xePack e)

/-- The signed-infinity sentinel: its working mantissa, and the packed words of the table with XE = 0; with XE = 1
the exponent is 511 and the byte is XE_PACK(511) (R70). -/
def Obligations.PackedSentinelsAreTheTable : Prop :=
  (∀ p : Prec, sentinel p false = (2 ^ (keptBits p - 1) - 1) * 2 ^ dropBits p ∧ sentinel p true = -2 ^ 63) ∧
  sentinel .x false = 0x7FFFFFFFFF000000 ∧
  (∀ (p : Prec) (xe : Bool) (x : Working), (fpRound p x).mi ≠ 0 → eMax xe < (fpRound p x).e →
    (xe = false → (fpPack p xe x).words = packedSentinel p (decide ((fpRound p x).mi < 0))) ∧
    (xe = true →
      mantField (fpPack p xe x).words = mantField (packedSentinel p (decide ((fpRound p x).mi < 0))) ∧
      expField (fpPack p xe x).words = Config.xePack 511))

/-- A zero result is the all-zero pattern whatever its exponent, and sets no flag (R72). -/
def Obligations.ZeroPacksToTheAllZeroPattern : Prop :=
  (∀ (p : Prec) (xe : Bool) (e : Int),
    (fpPack p xe ⟨0#64, e⟩).words = zeroWords p ∧ (fpPack p xe ⟨0#64, e⟩).st = .value) ∧
  (∀ (p : Prec) (xe : Bool) (s : State) (a : Working) (v : Bool), s.a = some a → s.o = .written v →
    a.m = 0#64 → ∃ t, exec (.pack p xe) s = .next t ∧ t.o = .written v ∧
      t.po = some (zeroWords p) ∧ t.st = some .value)

/-- Under XE = 1 a rounded exponent outside −128..127 but inside −512..511 packs with status VALUE, O not set, the
retained field as mantissa and the open byte XE_PACK(re), whatever that function is (R73). -/
def Obligations.ExpandedExponentPacksWithXePackByte : Prop :=
  ∀ (p : Prec) (s : State) (a r : Working) (v : Bool), s.a = some a → s.o = .written v →
    fpRound p a = r → r.mi ≠ 0 → (127 < r.e ∧ r.e ≤ 511) ∨ (-512 ≤ r.e ∧ r.e < -128) →
    ∃ t ws, exec (.pack p true) s = .next t ∧ t.st = some .value ∧ t.o = .written v ∧
      t.po = some ws ∧ ws.length = nWords p ∧
      (mantField ws : Int) = r.mi / 2 ^ dropBits p % 2 ^ keptBits p ∧
      expField ws = Config.xePack r.e

/-- Round trip: packing what a pattern with a normalized mantissa field unpacks to gives the pattern back, with
status VALUE (R74). -/
def Obligations.PackOfUnpackIsIdentity : Prop :=
  ∀ (p : Prec) (ws : List Word), ws.length = nWords p → fieldNormalized p ws →
    (fpPack p false (fpUnpack p ws)).words = ws ∧ (fpPack p false (fpUnpack p ws)).st = .value

/-- The packed and the working output agree: PO and ST of a finishing function are those of the pack step of its Y,
also for PACK, whose Y is already rounded and cleared (10_state.md R31, 41_normalize_round.md R87). -/
def Obligations.PackedOutputIsThePackOfY : Prop :=
  ∀ (i : Instr) (s t : State) (y : Working), exec i s = .next t → finishing i = true → t.y = some y →
    t.po = some (fpPack i.prec i.xe y).words ∧ t.st = some (fpPack i.prec i.xe y).st

/-- Every packed result with XE = 0 survives a store and a reload: packing its unpacked value gives the same words
(40_codec.md R74, R70, R72). -/
def Obligations.PackedResultRepacksToItself : Prop :=
  ∀ (i : Instr) (s t : State) (ws : List Word), exec i s = .next t → i.xe = false → t.po = some ws →
    (fpPack i.prec false (fpUnpack i.prec ws)).words = ws

/-- Overflow: exactly when Y's rounded mantissa is not zero and its rounded exponent exceeds E_MAX; then PO is the
sentinel of Y's sign and O is 1 (60_exceptions.md R139). -/
def Obligations.OverflowClampsToTheSentinelOfYsSign : Prop :=
  ∀ (i : Instr) (s t : State) (y : Working), exec i s = .next t → t.y = some y →
    (t.st = some .overflow ↔
      finishing i = true ∧ (fpRound i.prec y).mi ≠ 0 ∧ eMax i.xe < (fpRound i.prec y).e) ∧
    (t.st = some .overflow → t.o = .written true ∧
      ∃ ws, t.po = some ws ∧ ws.length = nWords i.prec ∧
        mantField ws = mantField (packedSentinel i.prec (decide (y.mi < 0))) ∧
        expField ws = if i.xe then Config.xePack 511 else 0xFE)

/-- Underflow: exactly when Y's rounded mantissa is not zero and its rounded exponent is below E_MIN; then PO is n_P
zero words and O is 1; and TRNC never underflows (60_exceptions.md R140). -/
def Obligations.UnderflowForcesExactZero : Prop :=
  ∀ (i : Instr) (s t : State) (y : Working), exec i s = .next t → t.y = some y →
    (t.st = some .underflow ↔
      finishing i = true ∧ (fpRound i.prec y).mi ≠ 0 ∧ (fpRound i.prec y).e < eMin i.xe) ∧
    (t.st = some .underflow →
      t.o = .written true ∧ t.po = some (zeroWords i.prec) ∧ ∀ p xe, i ≠ .trnc p xe)

/-! ## Normalizer and rounder (41_normalize_round.md) -/

/-- normalize: zero becomes (0, 0); any other value is normalized, by at most 63 exact doublings, each lowering the
exponent by one, so it denotes the same value; 62 doublings for m = 1 and 63 for m = −1 (R81). -/
def Obligations.NormalizeShiftsToCanonicalForm : Prop :=
  (∀ e : Int, fpNormalize ⟨0#64, e⟩ = ⟨0#64, 0⟩) ∧
  (∀ x : Working, x.mi ≠ 0 →
    normalized (fpNormalize x) ∧
    ((2 ^ 62 ≤ (fpNormalize x).mi ∧ (fpNormalize x).mi < 2 ^ 63) ∨
      (-2 ^ 63 ≤ (fpNormalize x).mi ∧ (fpNormalize x).mi < -2 ^ 62)) ∧
    ∃ k : Nat, k ≤ 63 ∧ (fpNormalize x).mi = x.mi * 2 ^ k ∧ (fpNormalize x).e = x.e - k) ∧
  (∀ x : Working, normalized x → fpNormalize x = x) ∧
  (∀ e : Int, fpNormalize ⟨1#64, e⟩ = ⟨0x4000000000000000#64, e - 62⟩ ∧
    fpNormalize ⟨0xFFFFFFFFFFFFFFFF#64, e⟩ = ⟨0x8000000000000000#64, e - 63⟩)

/-- The tie rule: with q the retained field and d the discarded part of the normalized input, the rounded and cleared
value is q + 1 when d ≥ H (m ≥ 0) or d > H (m < 0), else q, in units of 2^K at the normalized exponent; it is
nearest, and an exact tie goes to the larger magnitude (R83). -/
def Obligations.RoundsToNearestTiesToLargerMagnitude : Prop :=
  ∀ (p : Prec) (x n c : Working) (q q' d : Int), x.mi ≠ 0 → fpNormalize x = n →
    fpClear p (fpRound p x) = c → q = n.mi / 2 ^ dropBits p → d = n.mi - q * 2 ^ dropBits p →
    q' = (if 0 ≤ n.mi then (if halfUnit p ≤ d then q + 1 else q)
      else (if halfUnit p < d then q + 1 else q)) →
    0 ≤ d ∧ d < 2 ^ dropBits p ∧
    ((c.e = n.e ∧ c.mi = q' * 2 ^ dropBits p) ∨ (c.e = n.e + 1 ∧ 2 * c.mi = q' * 2 ^ dropBits p) ∨
      (c.e = n.e - 1 ∧ c.mi = 2 * (q' * 2 ^ dropBits p))) ∧
    2 * |n.mi - q' * 2 ^ dropBits p| ≤ 2 ^ dropBits p ∧
    (d = halfUnit p → |n.mi| < |q' * 2 ^ dropBits p|)

/-- Range and sign of round: the result is normalized and keeps the sign; its exponent is e_n + 1 exactly on the
positive carry-out, e_n − 1 exactly on the negative renormalization, else e_n, with the cleared values the rule
gives (R84). -/
def Obligations.RoundKeepsSignAndBoundsTheExponent : Prop :=
  ∀ (p : Prec) (x n r : Working), x.mi ≠ 0 → fpNormalize x = n → fpRound p x = r →
    normalized r ∧ (r.mi < 0 ↔ x.mi < 0) ∧
    (2 ^ 63 ≤ n.mi + halfUnit p →
      r.e = n.e + 1 ∧ 2 ^ 62 ≤ r.mi ∧ 2 * r.mi < 2 ^ 63 + halfUnit p ∧
      fpClear p r = ⟨0x4000000000000000#64, n.e + 1⟩) ∧
    (n.mi < 0 → -2 ^ 62 ≤ n.mi + (halfUnit p - 1) →
      r.e = n.e - 1 ∧ n.mi + (halfUnit p - 1) ≤ -2 ^ 62 + halfUnit p - 2 ∧
      fpClear p r = ⟨0x8000000000000000#64, n.e - 1⟩) ∧
    (n.mi + halfUnit p < 2 ^ 63 → (0 ≤ n.mi ∨ n.mi + (halfUnit p - 1) < -2 ^ 62) → r.e = n.e)

/-- RND is idempotent: a second RND of the same class on the Y of the first gives the same Y
(41_normalize_round.md R86). -/
def Obligations.RndTwiceIsRndOnce : Prop :=
  ∀ (p : Prec) (xe xe' : Bool) (s t : State), exec (.rnd p xe) s = .next t →
    ∃ u, exec (.rnd p xe') { t with a := t.y } = .next u ∧ u.y = t.y

/-! ## Adder, subtracter, complementer (42_add_sub.md) -/

/-- add: the zero identities; the larger-exponent operand alone beyond the alignment limit M + 1; else the sum S of
the operands shifted to the larger exponent, halved with exponent + 1 when S leaves the 64-bit range (R91). -/
def Obligations.AddAlignsAndSums : Prop :=
  ∀ (p : Prec) (a b : Working),
    (a.mi = 0 → fpAdd p a b = b) ∧
    (a.mi ≠ 0 → b.mi = 0 → fpAdd p a b = a) ∧
    (a.mi ≠ 0 → b.mi ≠ 0 → (keptBits p : Int) + 1 < a.e - b.e → fpAdd p a b = a) ∧
    (a.mi ≠ 0 → b.mi ≠ 0 → (keptBits p : Int) + 1 < b.e - a.e → fpAdd p a b = b) ∧
    (a.mi ≠ 0 → b.mi ≠ 0 → a.e - b.e ≤ (keptBits p : Int) + 1 → b.e - a.e ≤ (keptBits p : Int) + 1 →
      ∀ e sum : Int, e = max a.e b.e →
        sum = a.mi / 2 ^ (e - a.e).toNat + b.mi / 2 ^ (e - b.e).toNat →
        (-2 ^ 63 ≤ sum ∧ sum < 2 ^ 63 → (fpAdd p a b).mi = sum ∧ (fpAdd p a b).e = e) ∧
        (¬ (-2 ^ 63 ≤ sum ∧ sum < 2 ^ 63) → (fpAdd p a b).mi = sum / 2 ∧ (fpAdd p a b).e = e + 1))

/-- The exact-sum test is the source's sign test on the 64-bit sum: the sum is halved exactly when both aligned
operands share a sign that the 64-bit sum's sign differs from; the shift keeps the sign; a sum of opposite signs
fits; and the halved result is the floor of half the exact sum (R92). -/
def Obligations.AddOverflowIsTheSignTest : Prop :=
  (∀ ma mb e : Int, -2 ^ 63 ≤ ma → ma < 2 ^ 63 → -2 ^ 63 ≤ mb → mb < 2 ^ 63 →
    ((addAligned ma mb e).e = e + 1 ↔
      decide (ma < 0) = decide (mb < 0) ∧ (BitVec.ofInt 64 (ma + mb)).msb ≠ decide (ma < 0)) ∧
    ((addAligned ma mb e).e = e + 1 → (addAligned ma mb e).mi = (ma + mb) / 2) ∧
    ((addAligned ma mb e).e ≠ e + 1 → (addAligned ma mb e).mi = ma + mb ∧ (addAligned ma mb e).e = e) ∧
    (decide (ma < 0) ≠ decide (mb < 0) → (addAligned ma mb e).e = e)) ∧
  (∀ (m : Int) (d : Nat), asr m d < 0 ↔ m < 0)

/-- The identities of add, and its commutativity where not both mantissas are zero (R94). -/
def Obligations.AddZeroIdentityAndCommutativity : Prop :=
  (∀ (p : Prec) (x : Working) (e : Int), fpAdd p ⟨0#64, e⟩ x = x) ∧
  (∀ (p : Prec) (x : Working) (e : Int), x.mi ≠ 0 → fpAdd p x ⟨0#64, e⟩ = x) ∧
  (∀ (p : Prec) (a b : Working), a.mi ≠ 0 ∨ b.mi ≠ 0 → fpAdd p a b = fpAdd p b a)

/-- SUB on (A, B) drives what ADD drives on (A, cmpl(B)): subtract is complement of the subtrahend followed by
add (R96). -/
def Obligations.SubIsAddOfTheComplement : Prop :=
  ∀ (p : Prec) (xe : Bool) (s : State) (a b : Working) (v : Bool),
    s.a = some a → s.b = some b → s.o = .written v →
    ∃ t u, exec (.sub p xe) s = .next t ∧ exec (.add p xe) { s with b := some (fpCmpl b) } = .next u ∧
      t.o = u.o ∧ t.y = u.y ∧ t.po = u.po ∧ t.st = u.st

/-- x − x packs to zero with status VALUE and sets no flag, for every x, −2^63 among them (R97,
70_reset_and_hazards.md R163). -/
def Obligations.SubtractingAnOperandFromItselfGivesZero : Prop :=
  ∀ (p : Prec) (xe : Bool) (s : State) (x : Working) (v : Bool),
    s.a = some x → s.b = some x → s.o = .written v →
    ∃ t y, exec (.sub p xe) s = .next t ∧ t.y = some y ∧ y.mi = 0 ∧ t.po = some (zeroWords p) ∧
      t.st = some .value ∧ t.o = .written v

/-- complement: −2^63 becomes (2^62, e + 1), every other mantissa is negated at its exponent; both denote the exact
negation (R99). -/
def Obligations.ComplementNegatesExactly : Prop :=
  ∀ x : Working,
    (x.mi = -2 ^ 63 → (fpCmpl x).mi = 2 ^ 62 ∧ (fpCmpl x).e = x.e + 1) ∧
    (x.mi ≠ -2 ^ 63 → (fpCmpl x).mi = -x.mi ∧ (fpCmpl x).e = x.e) ∧
    (fpCmpl x).mi * 2 ^ ((fpCmpl x).e - x.e).toNat = -x.mi

/-! ## Multiplier (43_multiply.md) -/

/-- The split product of two magnitudes is floor(A·B / 2^64) exactly, and its carry term is at most 2 (R107). -/
def Obligations.SplitProductIsTheExactFloor : Prop :=
  ∀ a b : Nat, 1 ≤ a → a ≤ 2 ^ 63 → 1 ≤ b → b ≤ 2 ^ 63 →
    splitProduct a b = a * b / 2 ^ 64 ∧
    ((a / 2 ^ 32 * (b % 2 ^ 32)) % 2 ^ 32 + (a % 2 ^ 32 * (b / 2 ^ 32)) % 2 ^ 32
      + a % 2 ^ 32 * (b % 2 ^ 32) / 2 ^ 32) / 2 ^ 32 ≤ 2

/-- multiply: zero times anything is (0, 0); else the truncated product of the magnitudes, its sign the XOR of the
operands' signs, at exponent ea + eb + 1, within ±2^62 (R106). -/
def Obligations.MultiplyTruncatesTheSignedProduct : Prop :=
  ∀ a b : Working,
    (a.mi = 0 ∨ b.mi = 0 → fpMul a b = ⟨0#64, 0⟩) ∧
    (a.mi ≠ 0 → b.mi ≠ 0 →
      (fpMul a b).e = a.e + b.e + 1 ∧
      (fpMul a b).mi =
        (if xor (decide (a.mi < 0)) (decide (b.mi < 0)) then -(|a.mi| * |b.mi| / 2 ^ 64)
          else |a.mi| * |b.mi| / 2 ^ 64) ∧
      -2 ^ 62 ≤ (fpMul a b).mi ∧ (fpMul a b).mi ≤ 2 ^ 62)

/-! ## Divider (44_divide.md) -/

/-- divide-and-correct: each divstep gives the exact quotient and remainder of A·2^32 by B, the first loop needs at
most 8 corrections and the second at most 4, and the merged quotient is floor(A·2^62 / B) (R118). The model's loop is
bounded at the 8 corrections R118 gives (DEDUCED, log entry 7). -/
def Obligations.DivideAndCorrectIsTheExactFloor : Prop :=
  ∀ a b : Int, 0 ≤ a → 2 ^ 62 ≤ b → b ≤ 2 ^ 63 →
    (a ≤ 2 ^ 63 → divStep a b = (a * 2 ^ 32 / b, a * 2 ^ 32 % b)) ∧
    (2 ^ 62 ≤ a → a ≤ 2 ^ 63 → divideAndCorrect a b = a * 2 ^ 62 / b) ∧
    (∀ q r : Int, q = a / (b / 2 ^ 32) →
      r = (a - q * (b / 2 ^ 32)) * 2 ^ 32 - q * (b % 2 ^ 32) →
      (a ≤ 2 ^ 63 → ∀ n : Nat, divCorrect (8 + n) q r b = divCorrect 8 q r b) ∧
      (a < b → ∀ n : Nat, divCorrect (4 + n) q r b = divCorrect 4 q r b))

/-- divide: a zero dividend gives (0, 0); else a zero divisor gives the sentinel mantissa of the dividend's sign at
E_MAX + 1; else the truncated quotient of the normalized magnitudes with the XOR sign at ea − eb + 1. The bound
is 2^61 ≤ Q ≤ 2^63: R116 writes 2^61 < Q, which its own example 1 ÷ −1 refutes (log entry 10). -/
def Obligations.DivideTruncatesTheSignedQuotient : Prop :=
  ∀ (p : Prec) (xe : Bool) (a b : Working),
    (a.mi = 0 → fpDiv p xe a b = ⟨0#64, 0⟩) ∧
    (a.mi ≠ 0 → b.mi = 0 →
      (fpDiv p xe a b).mi = sentinel p (decide (a.mi < 0)) ∧ (fpDiv p xe a b).e = eMax xe + 1) ∧
    (a.mi ≠ 0 → b.mi ≠ 0 → ∀ (na nb : Working) (q : Int), fpNormalize a = na → fpNormalize b = nb →
      q = |na.mi| * 2 ^ 62 / |nb.mi| →
      (fpDiv p xe a b).e = na.e - nb.e + 1 ∧
      (fpDiv p xe a b).mi = (if xor (decide (na.mi < 0)) (decide (nb.mi < 0)) then -q else q) ∧
      2 ^ 61 ≤ q ∧ q ≤ 2 ^ 63)

/-- Division by zero: a non-zero dividend over a zero-mantissa divisor, whatever its exponent, gives status OVERFLOW,
the packed sentinel of the dividend's sign and O = 1; a zero dividend gives Y = (0, 0), PO = 0, VALUE and O as it
was (R119). -/
def Obligations.DivisionByZeroGivesTheDividendsSentinel : Prop :=
  ∀ (p : Prec) (xe : Bool) (s : State) (a b : Working) (v : Bool),
    s.a = some a → s.b = some b → s.o = .written v →
    (a.mi ≠ 0 → b.mi = 0 → ∃ t ws, exec (.div p xe) s = .next t ∧ t.st = some .overflow ∧
      t.o = .written true ∧ t.po = some ws ∧
      (xe = false → ws = packedSentinel p (decide (a.mi < 0))) ∧
      (xe = true → mantField ws = mantField (packedSentinel p (decide (a.mi < 0))) ∧
        expField ws = Config.xePack 511)) ∧
    (a.mi = 0 → ∃ t, exec (.div p xe) s = .next t ∧ t.y = some ⟨0#64, 0⟩ ∧
      t.po = some (zeroWords p) ∧ t.st = some .value ∧ t.o = .written v)

/-! ## Truncate (45_truncate.md) -/

/-- truncate: e ≤ 0 gives (0, 0), e ≥ 63 the value itself, and between them the integer part toward zero: the
quotient of m by 2^(63−e) rounded toward zero, at the same exponent (R128). -/
def Obligations.TruncateIsTowardZero : Prop :=
  ∀ x : Working,
    (x.e ≤ 0 → fpTrunc x = ⟨0#64, 0⟩) ∧
    (63 ≤ x.e → fpTrunc x = x) ∧
    (0 < x.e → x.e < 63 → (fpTrunc x).e = x.e ∧
      (fpTrunc x).mi = Int.tdiv x.mi (2 ^ (63 - x.e).toNat) * 2 ^ (63 - x.e).toNat)

/-- The one input the exponent test misjudges: (−2^63, 0) truncates to (0, 0) although its magnitude is one; every
other input with e ≤ 0 has magnitude |m|·2^(e−63) below one (R130). -/
def Obligations.TruncateOfMinusOneIsZero : Prop :=
  fpTrunc ⟨0x8000000000000000#64, 0⟩ = ⟨0#64, 0⟩ ∧
  (∀ x : Working, x.e ≤ 0 → x ≠ ⟨0x8000000000000000#64, 0⟩ → |x.mi| < 2 ^ (63 - x.e).toNat)

/-- Truncate is idempotent on the working value: TRNC of the Y of a TRNC drives the same Y (R131). -/
def Obligations.TruncateTwiceIsTruncateOnce : Prop :=
  ∀ (p q : Prec) (xe xe' : Bool) (s t : State), exec (.trnc p xe) s = .next t →
    ∃ u, exec (.trnc q xe') { t with a := t.y } = .next u ∧ u.y = t.y

/-! ## The host contract (20_memory.md, 70_reset_and_hazards.md) -/

/-- A packed operand stored word by word and fetched again is unchanged where its addresses stay within VA_BITS, and
no other address changes (20_memory.md R45, R47; R41). The second clause is over wordAddr, whose wrap at 2^VA_BITS is THE
MODEL'S CHOICE (log entry 12). -/
def Obligations.HostStoreThenFetchAndFrame : Prop :=
  ∀ (prm : HostParams) (mem : HostMemory) (base : Nat) (ws : List Word),
    (base + ws.length ≤ 2 ^ prm.vaBits →
      readWords prm (writeWords prm mem base 0 ws) base 0 ws.length = .ok ws) ∧
    (∀ a : Nat, (∀ i : Nat, i < ws.length → a ≠ wordAddr prm base i) →
      readWord (writeWords prm mem base 0 ws) a = readWord mem a)

/-- The chained engine's two terminals issue no transaction: the sentinel takes the good return and a word count that
is neither zero nor n_P the error return, with the FPAU, the Accumulators and memory as they were
(60_exceptions.md R146, 70_reset_and_hazards.md R158). Each of the three declared counts is compared, the second one of a
unary operation and the result's included. That runChain takes the sets already decoded is THE MODEL'S CHOICE (log entry
20). -/
def Obligations.ChainTerminalsIssueNoTransaction : Prop :=
  ∀ (prm : HostParams) (c : ChainSet) (cs : List ChainSet) (h : HostState),
    (c.op = none → runChain prm (c :: cs) h = .ok (.good, h)) ∧
    (∀ op p, c.op = some (op, p) →
      (c.count1 ≠ 0 ∧ c.count1 ≠ nWords p) ∨ (c.count2 ≠ 0 ∧ c.count2 ≠ nWords p) ∨
        (c.resultCount ≠ 0 ∧ c.resultCount ≠ nWords p) →
      runChain prm (c :: cs) h = .ok (.error, h))

/-- O accumulates across the sets of one chained opcode: no set of a chain clears it (70_reset_and_hazards.md R156).
That the chain is a list of sets already decoded is THE MODEL'S CHOICE (log entry 20). -/
def Obligations.ChainNeverClearsO : Prop :=
  ∀ (prm : HostParams) (cs : List ChainSet) (h h' : HostState) (ret : ChainReturn),
    runChain prm cs h = .ok (ret, h') → h.fpau.o = .written true → h'.fpau.o = .written true

/-- O is reset by a top-level arithmetic opcode: what it does is the same whatever O was before it, the
host's status bit then shows O, and the modifier is used up (70_reset_and_hazards.md R156, R159). -/
def Obligations.ArithOpcodeDoesNotDependOnTheEarlierO : Prop :=
  ∀ (prm : HostParams) (op : ArithOp) (p : Prec) (r1 r2 : OperandRef) (dest : ResultRef)
    (h h' : HostState) (f : OFlag), arithOpcode prm op p r1 r2 dest h = .ok h' →
    arithOpcode prm op p r1 r2 dest { h with fpau := { h.fpau with o := f } } = .ok h' ∧
    h'.fpau.o = .written h'.statusOv ∧ h'.modifier = false

/-- A chained opcode's next set is read from the memory the set before it left: after a set that runs, the chain goes on
from that set's state, where a stored result's words stand at the addresses they were stored to and every other word is
as it was (20_memory.md R49, R50; 70_reset_and_hazards.md R158). THE MODEL'S CHOICES: the format of a set (log entry 20),
the indirection of the result's address word (log entry 19), the wrap of wordAddr (log entry 12), and (log
entry 13) that a converted result's words are those of the target class, whatever count the set declares. -/
def Obligations.ChainReadsEachSetAfterTheEarlierStores : Prop :=
  ∀ (prm : HostParams) (fmt : ChainFormat) (sets base : Nat) (c : ChainSet) (op : ArithOp) (p : Prec)
    (h h' : HostState), readSet prm fmt h.mem base = .ok c → c.op = some (op, p) →
    setMismatch p c = false → runSet prm op p c h = .ok h' →
    runChainAt prm fmt (sets + 1) base h = runChainAt prm fmt sets (base + fmt.setLength) h' ∧
    (c.resultCount = 0 → h'.mem = h.mem) ∧
    (c.resultCount ≠ 0 → ∃ dst po, effectiveAddr prm h.mem c.resultAddr = .ok dst ∧
      readPO h'.fpau = .ok po ∧ po.length = nWords (c.convert.getD p) ∧
      (dst + po.length ≤ 2 ^ prm.vaBits → ∀ i w, po[i]? = some w → readWord h'.mem (dst + i) = some w) ∧
      (∀ a, (∀ i, i < po.length → a ≠ wordAddr prm dst i) → readWord h'.mem a = readWord h.mem a))
end

