-- ==== Sys2Proof/Laws/Bits.lean ====
section
/-! SUPPORT. The small lemmas of the notation: narrowing an in-range integer loses nothing, the arithmetic
shift keeps range and sign, and the parameters of each class as numerals. -/

namespace Sys2Proof.Machine

@[simp] theorem narrow_e (m e : Int) : (narrow m e).e = e := rfl

theorem narrow_mi (m e : Int) (h : -2 ^ 63 ≤ m) (h' : m < 2 ^ 63) : (narrow m e).mi = m := by
  show (BitVec.ofInt 64 m).toInt = m
  exact BitVec.toInt_ofInt_eq_self (by decide) h h'

theorem mi_range (x : Working) : -2 ^ 63 ≤ x.mi ∧ x.mi < 2 ^ 63 :=
  ⟨BitVec.le_toInt x.m, BitVec.toInt_lt⟩

theorem mi_eq_zero_iff (x : Working) : x.mi = 0 ↔ x.m = 0#64 := by
  rw [← BitVec.toInt_inj]; simp [Working.mi]

theorem narrow_self (x : Working) : narrow x.mi x.e = x := by
  cases x; simp [narrow, Working.mi]

/-- Working values are equal when their mantissa integers and exponents are. -/
theorem working_ext {x y : Working} (hm : x.mi = y.mi) (he : x.e = y.e) : x = y := by
  rw [← narrow_self x, ← narrow_self y, hm, he]

theorem asr_eq (m : Int) (d : Nat) : asr m d = m / 2 ^ d := rfl

theorem fdiv_eq_floor (a b : Int) (hb : 0 < b) : fdiv a b = Int.fdiv a b :=
  (Int.fdiv_eq_ediv_of_nonneg a hb.le).symm

theorem asr_range (m : Int) (d : Nat) (h : -2 ^ 63 ≤ m) (h' : m < 2 ^ 63) :
    -2 ^ 63 ≤ asr m d ∧ asr m d < 2 ^ 63 := by
  have h1 : (1 : Int) ≤ 2 ^ d := one_le_pow₀ (by norm_num)
  constructor
  · rw [asr_eq, Int.le_ediv_iff_mul_le (by omega)]
    nlinarith
  · rw [asr_eq, Int.ediv_lt_iff_lt_mul (by omega)]
    nlinarith

theorem asr_neg_iff (m : Int) (d : Nat) : asr m d < 0 ↔ m < 0 := by
  have h1 : (0 : Int) < 2 ^ d := by positivity
  rw [asr_eq, Int.ediv_lt_iff_lt_mul h1]; simp

theorem asr_zero (m : Int) : asr m 0 = m := by simp [asr, fdiv]

@[simp] theorem nWords_f : nWords .f = 2 := rfl
@[simp] theorem nWords_x : nWords .x = 3 := rfl
@[simp] theorem nWords_t : nWords .t = 4 := rfl
@[simp] theorem keptBits_f : keptBits .f = 24 := rfl
@[simp] theorem keptBits_x : keptBits .x = 40 := rfl
@[simp] theorem keptBits_t : keptBits .t = 56 := rfl
@[simp] theorem dropBits_f : dropBits .f = 40 := rfl
@[simp] theorem dropBits_x : dropBits .x = 24 := rfl
@[simp] theorem dropBits_t : dropBits .t = 8 := rfl
@[simp] theorem halfUnit_f : halfUnit .f = 2 ^ 39 := rfl
@[simp] theorem halfUnit_x : halfUnit .x = 2 ^ 23 := rfl
@[simp] theorem halfUnit_t : halfUnit .t = 2 ^ 7 := rfl
@[simp] theorem eMin_false : eMin false = -128 := rfl
@[simp] theorem eMin_true : eMin true = -512 := rfl
@[simp] theorem eMax_false : eMax false = 127 := rfl
@[simp] theorem eMax_true : eMax true = 511 := rfl

theorem mantissaOk_iff (m : Int) : mantissaOk m = true ↔ -2 ^ 63 ≤ m ∧ m < 2 ^ 63 := by
  simp [mantissaOk]

end Sys2Proof.Machine
end

