-- ==== Sys2Proof/Laws/HostMemory.lean ====
section
/-! SUPPORT. The host's memory keeps its canonical form, a read after a write gives the word written, and a
write leaves every other address alone. -/

namespace Sys2Proof.Machine

@[simp] theorem memWf_nil : memWf [] = true := rfl

/-- A write's first address is the written one or the old first one. -/
theorem writeWord_head (m : HostMemory) (a : Nat) (w : Word) :
    ∃ v rest, writeWord m a w = (a, v) :: rest ∨
      ∃ k, (m.head?.map Prod.fst = some k) ∧ k < a ∧ writeWord m a w = (k, v) :: rest := by
  cases m with
  | nil => exact ⟨w, [], .inl rfl⟩
  | cons c rest =>
    obtain ⟨k, v⟩ := c
    by_cases h1 : a < k
    · exact ⟨w, (k, v) :: rest, .inl (by simp [writeWord, h1])⟩
    · by_cases h2 : a = k
      · exact ⟨w, rest, .inl (by simp [writeWord, h2])⟩
      · exact ⟨v, writeWord rest a w, .inr ⟨k, rfl, by omega, by simp [writeWord, h1, h2]⟩⟩

theorem memWf_cons_iff (k : Nat) (v : Word) (m : HostMemory) :
    memWf ((k, v) :: m) = true ↔ (∀ k', m.head?.map Prod.fst = some k' → k < k') ∧ memWf m = true := by
  cases m with
  | nil => simp [memWf]
  | cons c rest => obtain ⟨k', v'⟩ := c; simp [memWf]

/-- A write keeps the canonical form. -/
theorem memWf_writeWord (m : HostMemory) (a : Nat) (w : Word) (h : memWf m = true) :
    memWf (writeWord m a w) = true := by
  induction m with
  | nil => rfl
  | cons c rest ih =>
    obtain ⟨k, v⟩ := c
    obtain ⟨hlt, hrest⟩ := (memWf_cons_iff k v rest).1 h
    by_cases h1 : a < k
    · simp only [writeWord, h1, if_true]
      exact (memWf_cons_iff _ _ _).2 ⟨by simp [h1], h⟩
    · by_cases h2 : a = k
      · subst h2
        simpa [writeWord] using (memWf_cons_iff _ _ _).2 ⟨hlt, hrest⟩
      · simp only [writeWord, h1, h2, if_false]
        refine (memWf_cons_iff _ _ _).2 ⟨?_, ih hrest⟩
        obtain ⟨v', rest', hw | ⟨k', hk', _, hw⟩⟩ := writeWord_head rest a w
        · rw [hw]; intro x hx; simp at hx; omega
        · rw [hw]; intro x hx; simp at hx; subst hx; exact hlt _ hk'

/-- A run of writes keeps the canonical form. -/
theorem memWf_writeWords (prm : HostParams) (base : Nat) (ws : List Word) :
    ∀ (m : HostMemory) (i : Nat), memWf m = true → memWf (writeWords prm m base i ws) = true := by
  induction ws with
  | nil => intro m i h; exact h
  | cons w ws ih => intro m i h; exact ih _ _ (memWf_writeWord _ _ _ h)

@[simp] theorem readWord_writeWord_same (m : HostMemory) (a : Nat) (w : Word) :
    readWord (writeWord m a w) a = some w := by
  induction m with
  | nil => simp [writeWord, readWord]
  | cons c rest ih =>
    obtain ⟨k, v⟩ := c
    by_cases h1 : a < k
    · simp [writeWord, h1, readWord]
    · by_cases h2 : a = k
      · simp [writeWord, h2, readWord]
      · simp [writeWord, h1, h2, readWord, ih, Ne.symm h2]

theorem readWord_writeWord_other (m : HostMemory) (a a' : Nat) (w : Word) (hne : a' ≠ a) :
    readWord (writeWord m a w) a' = readWord m a' := by
  induction m with
  | nil => simp [writeWord, readWord, Ne.symm hne]
  | cons c rest ih =>
    obtain ⟨k, v⟩ := c
    by_cases h1 : a < k
    · simp [writeWord, h1, readWord, Ne.symm hne]
    · by_cases h2 : a = k
      · simp [writeWord, h2, readWord, Ne.symm (h2 ▸ hne)]
      · simp [writeWord, h1, h2, readWord, ih]

/-- The host's read of a word as data answers exactly where the word has been written (20_memory.md R50). -/
@[simp] theorem readWordAt_eq_ok (prm : HostParams) (m : HostMemory) (base i : Nat) (w : Word) :
    readWordAt prm m base i = .ok w ↔ readWord m (wordAddr prm base i) = some w := by
  unfold readWordAt
  split <;> simp_all

end Sys2Proof.Machine
end

