-- ==== Sys2Proof/Laws/State.lean ====
section
/-! SUPPORT. One lemma for each field under each update of State and HostState. -/

namespace Sys2Proof.Machine

section Drive
variable (s : State) (o : OFlag) (y : Option Working) (po : Option (List Word)) (st : Status)

@[simp] theorem drive_o : (drive s o y po st).o = o := rfl
@[simp] theorem drive_cw : (drive s o y po st).cw = s.cw := rfl
@[simp] theorem drive_a : (drive s o y po st).a = s.a := rfl
@[simp] theorem drive_b : (drive s o y po st).b = s.b := rfl
@[simp] theorem drive_pi : (drive s o y po st).pi = s.pi := rfl
@[simp] theorem drive_y : (drive s o y po st).y = y := rfl
@[simp] theorem drive_po : (drive s o y po st).po = po := rfl
@[simp] theorem drive_st : (drive s o y po st).st = some st := rfl
end Drive

section Present
variable (t : Transaction) (s : State)

@[simp] theorem present_o : (present t s).o = s.o := rfl
@[simp] theorem present_cw : (present t s).cw = some t.cw := rfl
@[simp] theorem present_a : (present t s).a = t.a := rfl
@[simp] theorem present_b : (present t s).b = t.b := rfl
@[simp] theorem present_pi : (present t s).pi = t.pi := rfl
@[simp] theorem present_y : (present t s).y = s.y := rfl
@[simp] theorem present_po : (present t s).po = s.po := rfl
@[simp] theorem present_st : (present t s).st = s.st := rfl
end Present

section PresentForRun
variable (s : State) (w : Word)

@[simp] theorem presentForRun_o : (presentForRun s w).o = bootO s.o := rfl
@[simp] theorem presentForRun_cw : (presentForRun s w).cw = some w := rfl
@[simp] theorem presentForRun_a : (presentForRun s w).a = some (s.a.getD Working.zero) := rfl
@[simp] theorem presentForRun_b : (presentForRun s w).b = some (s.b.getD Working.zero) := rfl
@[simp] theorem presentForRun_pi :
    (presentForRun s w).pi = s.pi ++ List.replicate (4 - s.pi.length) 0 := rfl
@[simp] theorem presentForRun_y : (presentForRun s w).y = s.y := rfl
@[simp] theorem presentForRun_po : (presentForRun s w).po = s.po := rfl
@[simp] theorem presentForRun_st : (presentForRun s w).st = s.st := rfl
end PresentForRun

section Unimplemented
variable (s : State)

@[simp] theorem unimplemented_o : (unimplemented s).o = s.o := rfl
@[simp] theorem unimplemented_y : (unimplemented s).y = none := rfl
@[simp] theorem unimplemented_po : (unimplemented s).po = none := rfl
@[simp] theorem unimplemented_st : (unimplemented s).st = some .unimpl := rfl
@[simp] theorem unimplemented_cw : (unimplemented s).cw = s.cw := rfl
@[simp] theorem unimplemented_a : (unimplemented s).a = s.a := rfl
@[simp] theorem unimplemented_b : (unimplemented s).b = s.b := rfl
@[simp] theorem unimplemented_pi : (unimplemented s).pi = s.pi := rfl
end Unimplemented

section Accumulators
variable (h : HostState) (p : Prec) (v : Working)

@[simp] theorem getAcc_setAcc : getAcc (setAcc h p v) p = v := by cases p <;> rfl
theorem getAcc_setAcc_of_ne {q : Prec} (hq : q ≠ p) : getAcc (setAcc h p v) q = getAcc h q := by
  cases p <;> cases q <;> first | rfl | exact absurd rfl hq
@[simp] theorem setAcc_fpau : (setAcc h p v).fpau = h.fpau := by cases p <;> rfl
@[simp] theorem setAcc_mem : (setAcc h p v).mem = h.mem := by cases p <;> rfl
@[simp] theorem setAcc_reg0 : (setAcc h p v).reg0 = h.reg0 := by cases p <;> rfl
@[simp] theorem setAcc_reg1 : (setAcc h p v).reg1 = h.reg1 := by cases p <;> rfl
@[simp] theorem setAcc_statusOv : (setAcc h p v).statusOv = h.statusOv := by cases p <;> rfl
@[simp] theorem setAcc_modifier : (setAcc h p v).modifier = h.modifier := by cases p <;> rfl
end Accumulators

end Sys2Proof.Machine
end

