-- ==== Sys2Proof/Laws/Ops.lean ====
section
/-! SUPPORT. For each shared operation one lemma that says everything it can do; later proofs cite it
instead of unfolding the operation. -/

namespace Sys2Proof.Machine

/-! ## The port reads -/

theorem withA_next {s t : State} {k : Working → Result} (h : withA s k = .next t) :
    ∃ a, s.a = some a ∧ k a = .next t := by
  unfold withA at h
  split at h
  · exact ⟨_, ‹_›, h⟩
  · cases h

theorem withB_next {s t : State} {k : Working → Result} (h : withB s k = .next t) :
    ∃ b, s.b = some b ∧ k b = .next t := by
  unfold withB at h
  split at h
  · exact ⟨_, ‹_›, h⟩
  · cases h

theorem withPI_next {p : Prec} {s t : State} {k : List Word → Result} (h : withPI p s k = .next t) :
    nWords p ≤ s.pi.length ∧ k (s.pi.take (nWords p)) = .next t := by
  unfold withPI at h
  split at h
  · exact ⟨‹_›, h⟩
  · cases h

theorem withA_of_driven {s : State} {a : Working} (k : Working → Result) (h : s.a = some a) :
    withA s k = k a := by simp [withA, h]

theorem withB_of_driven {s : State} {b : Working} (k : Working → Result) (h : s.b = some b) :
    withB s k = k b := by simp [withB, h]

theorem withPI_of_driven {p : Prec} {s : State} (k : List Word → Result) (h : nWords p ≤ s.pi.length) :
    withPI p s k = k (s.pi.take (nWords p)) := by simp [withPI, h]

/-! ## O and the completion of a transaction -/

theorem withOrO_next {s t : State} {f : Bool} {k : OFlag → Result} (h : withOrO s f k = .next t) :
    ∃ v, s.o = .written v ∧ k (.written (v || f)) = .next t := by
  unfold withOrO at h
  split at h
  · exact ⟨_, ‹_›, h⟩
  · cases h

theorem withOrO_of_written {s : State} {v : Bool} (f : Bool) (k : OFlag → Result) (h : s.o = .written v) :
    withOrO s f k = k (.written (v || f)) := by simp [withOrO, h]

theorem completeValue_next {s t : State} {y : Working} (h : completeValue s y = .next t) :
    t = drive s s.o (some y) none .value := by
  cases h; rfl

theorem completePacked_next {s t : State} {k : Packed} {y : Working}
    (h : completePacked s k y = .next t) :
    ∃ v, s.o = .written v ∧ t = drive s (.written (v || raisesO k.st)) (some y) (some k.words) k.st := by
  obtain ⟨v, hv, h⟩ := withOrO_next h
  cases h
  exact ⟨v, hv, rfl⟩

theorem completePacked_of_written {s : State} {v : Bool} (k : Packed) (y : Working) (h : s.o = .written v) :
    completePacked s k y =
      .next (drive s (.written (v || raisesO k.st)) (some y) (some k.words) k.st) :=
  withOrO_of_written _ _ h

theorem finish_next {p : Prec} {xe : Bool} {s t : State} {y : Working} (h : finish p xe s y = .next t) :
    ∃ v, s.o = .written v ∧
      t = drive s (.written (v || raisesO (fpPack p xe y).st)) (some y) (some (fpPack p xe y).words)
        (fpPack p xe y).st :=
  completePacked_next h

theorem finish_of_written {p : Prec} {xe : Bool} {s : State} {v : Bool} (y : Working)
    (h : s.o = .written v) :
    finish p xe s y =
      .next (drive s (.written (v || raisesO (fpPack p xe y).st)) (some y)
        (some (fpPack p xe y).words) (fpPack p xe y).st) :=
  completePacked_of_written _ _ h

/-! ## The packed words and the rounder -/

@[simp] theorem splitWords_length (n pb : Nat) : (splitWords n pb).length = n := by simp [splitWords]

@[simp] theorem zeroWords_length (p : Prec) : (zeroWords p).length = nWords p := by simp [zeroWords]

@[simp] theorem fpEncode_length (p : Prec) (m e : Int) : (fpEncode p m e).length = nWords p := by
  simp [fpEncode]

/-- The four ways round answers (41_normalize_round.md R82). -/
theorem fpRound_cases (p : Prec) (x : Working) :
    ((fpNormalize x).m = 0#64 ∧ fpRound p x = Working.zero) ∨
    (0 ≤ (fpNormalize x).mi ∧ 2 ^ 63 ≤ (fpNormalize x).mi + halfUnit p ∧
      fpRound p x = narrow (fdiv ((fpNormalize x).mi + halfUnit p) 2) ((fpNormalize x).e + 1)) ∨
    (0 ≤ (fpNormalize x).mi ∧ (fpNormalize x).mi + halfUnit p < 2 ^ 63 ∧
      fpRound p x = fpNormalize (narrow ((fpNormalize x).mi + halfUnit p) (fpNormalize x).e)) ∨
    ((fpNormalize x).mi < 0 ∧
      fpRound p x = fpNormalize (narrow ((fpNormalize x).mi + (halfUnit p - 1)) (fpNormalize x).e)) := by
  by_cases h0 : (fpNormalize x).m = 0#64
  · exact .inl ⟨h0, by unfold fpRound; rw [if_pos h0]⟩
  by_cases h1 : 0 ≤ (fpNormalize x).mi
  · by_cases h2 : 2 ^ 63 ≤ (fpNormalize x).mi + halfUnit p
    · exact .inr (.inl ⟨h1, h2, by unfold fpRound; rw [if_neg h0, if_pos h1, if_pos h2]⟩)
    · exact .inr (.inr (.inl ⟨h1, by omega, by unfold fpRound; rw [if_neg h0, if_pos h1, if_neg h2]⟩))
  · exact .inr (.inr (.inr ⟨by omega, by unfold fpRound; rw [if_neg h0, if_neg h1]⟩))

/-! ## One transaction -/

/-- Everything a transaction can do when it answers a next state: it drives Y alone with ST = VALUE, or
drives Y, PO and ST from a pack step and accumulates O, or clears O. -/
theorem exec_next {i : Instr} {s t : State} (h : exec i s = .next t) :
    (∃ y, t = drive s s.o (some y) none .value) ∨
    (∃ v y x, s.o = .written v ∧
      t = drive s (.written (v || raisesO (fpPack i.prec i.xe x).st)) (some y)
        (some (fpPack i.prec i.xe x).words) (fpPack i.prec i.xe x).st) ∨
    (t = drive s (.written false) none none .value) := by
  cases i with
  | unpk p xe =>
    simp only [exec, execUnpk] at h
    obtain ⟨_, h⟩ := withPI_next h
    exact .inl ⟨_, completeValue_next h⟩
  | norm p xe | rnd p xe =>
    simp only [exec, execNorm, execRnd] at h
    obtain ⟨_, _, h⟩ := withA_next h
    exact .inl ⟨_, completeValue_next h⟩
  | clro p xe => cases h; exact .inr (.inr rfl)
  | pack p xe =>
    simp only [exec, execPack] at h
    obtain ⟨_, _, h⟩ := withA_next h
    obtain ⟨v, hv, h⟩ := completePacked_next h
    exact .inr (.inl ⟨v, _, _, hv, h⟩)
  | cmpl p xe | trnc p xe =>
    simp only [exec, execCmpl, execTrnc] at h
    obtain ⟨_, _, h⟩ := withA_next h
    obtain ⟨v, hv, h⟩ := finish_next h
    exact .inr (.inl ⟨v, _, _, hv, h⟩)
  | add p xe | sub p xe | mpy p xe | div p xe =>
    simp only [exec, execAdd, execSub, execMpy, execDiv] at h
    obtain ⟨_, _, h⟩ := withA_next h
    obtain ⟨_, _, h⟩ := withB_next h
    obtain ⟨v, hv, h⟩ := finish_next h
    exact .inr (.inl ⟨v, _, _, hv, h⟩)

/-- The four ways the pack step answers (40_codec.md R68). -/
theorem fpPack_cases (p : Prec) (xe : Bool) (x : Working) :
    ((fpRound p x).m = 0#64 ∧ fpPack p xe x = ⟨zeroWords p, .value, fpRound p x⟩) ∨
    ((fpRound p x).m ≠ 0#64 ∧ (fpRound p x).e < eMin xe ∧
      fpPack p xe x = ⟨zeroWords p, .underflow, fpRound p x⟩) ∨
    ((fpRound p x).m ≠ 0#64 ∧ eMax xe < (fpRound p x).e ∧
      fpPack p xe x =
        ⟨fpEncode p (sentinel p (decide ((fpRound p x).mi < 0))) (eMax xe), .overflow, fpRound p x⟩) ∨
    ((fpRound p x).m ≠ 0#64 ∧ eMin xe ≤ (fpRound p x).e ∧ (fpRound p x).e ≤ eMax xe ∧
      fpPack p xe x = ⟨fpEncode p (fpRound p x).mi (fpRound p x).e, .value, fpRound p x⟩) := by
  have hx : eMin xe ≤ eMax xe := by cases xe <;> decide
  by_cases h0 : (fpRound p x).m = 0#64
  · exact .inl ⟨h0, by simp [fpPack, h0]⟩
  by_cases h1 : (fpRound p x).e < eMin xe
  · exact .inr (.inl ⟨h0, h1, by simp [fpPack, h0, h1]⟩)
  by_cases h2 : eMax xe < (fpRound p x).e
  · exact .inr (.inr (.inl ⟨h0, h2, by simp [fpPack, h0, h1, h2]⟩))
  · exact .inr (.inr (.inr ⟨h0, by omega, by omega, by simp [fpPack, h0, h1, h2]⟩))

/-- Everything a step can do when it answers a next state. -/
theorem step_next {s t : State} (h : step s = .next t) :
    (s.cw = none ∧ t = s) ∨
    (∃ w r, s.cw = some w ∧ decode w = .error r ∧ t = unimplemented s) ∨
    (∃ w i, s.cw = some w ∧ decode w = .ok i ∧ exec i s = .next t) := by
  unfold step fetchWord at h
  split at h
  · cases h; exact .inl ⟨‹_›, rfl⟩
  · split at h
    · exact .inr (.inr ⟨_, _, ‹_›, ‹_›, h⟩)
    · cases h; exact .inr (.inl ⟨_, _, ‹_›, ‹_›, rfl⟩)

/-! ## The host's operations over a step -/

theorem issue_ok {t : Transaction} {h h' : HostState} (hi : issue t h = .ok h') :
    ∃ s, step (present t h.fpau) = .next s ∧ h' = { h with fpau := s } := by
  unfold issue at hi
  split at hi
  · cases hi; exact ⟨_, ‹_›, rfl⟩
  · cases hi
  · cases hi

theorem endOpcode_ok {h h' : HostState} (he : endOpcode h = .ok h') :
    ∃ v, h.fpau.o = .written v ∧ h' = { h with statusOv := v, modifier := false } := by
  unfold endOpcode readOV at he
  cases ho : h.fpau.o with
  | unwritten => simp [ho] at he
  | written v => simp [ho] at he; exact ⟨v, rfl, he.symm⟩

end Sys2Proof.Machine
end

