-- ==== Sys2Proof/Laws/HostContract.lean ====
section
/-! SUPPORT. What a host operation does to the host's memory and to the FPAU's outputs: only a store writes
memory, and a finishing transaction leaves n_P words on PO. -/

namespace Sys2Proof.Machine

/-- The one equation of the host's sequencing: a pair of operations answers when both do. -/
theorem except_bind_ok {ε α β : Type} {x : Except ε α} {f : α → Except ε β} {b : β} (h : (x >>= f) = .ok b) :
    ∃ a, x = .ok a ∧ f a = .ok b := by
  cases x with
  | error e => cases h
  | ok a => exact ⟨a, rfl, h⟩

theorem hostPO_ok {h : HostState} {po : List Word} (hp : hostPO h = .ok po) : readPO h.fpau = .ok po := by
  unfold hostPO at hp
  split at hp
  · cases hp; assumption
  · cases hp

/-- Fetching an operand leaves memory alone (70_reset_and_hazards.md R157). -/
theorem fetchOperand_mem {prm : HostParams} {p : Prec} {r : OperandRef} {h h' : HostState} {x : Working}
    (hf : fetchOperand prm p r h = .ok (x, h')) : h'.mem = h.mem := by
  cases r with
  | accumulator => cases hf; rfl
  | memory w =>
    obtain ⟨base, -, hf⟩ := except_bind_ok hf
    obtain ⟨ws, -, hf⟩ := except_bind_ok hf
    obtain ⟨h1, hi, hf⟩ := except_bind_ok hf
    obtain ⟨y, -, hf⟩ := except_bind_ok hf
    obtain ⟨s, -, rfl⟩ := issue_ok hi
    cases hf; rfl

theorem fetchSecond_mem {prm : HostParams} {op : ArithOp} {p : Prec} {r : OperandRef} {h h' : HostState}
    {x : Option Working} (hf : fetchSecond prm op p r h = .ok (x, h')) : h'.mem = h.mem := by
  unfold fetchSecond at hf
  split at hf
  · obtain ⟨⟨b, h1⟩, h2, hf⟩ := except_bind_ok hf
    cases hf; exact fetchOperand_mem h2
  · cases hf; rfl

/-- An execution and a conversion leave memory alone (70_reset_and_hazards.md R157, R158). -/
theorem executeArith_mem_po {op : ArithOp} {p : Prec} {a : Working} {b : Option Working} {h h' : HostState}
    {po : List Word} (he : executeArith op p a b h = .ok (po, h')) :
    h'.mem = h.mem ∧ readPO h'.fpau = .ok po := by
  obtain ⟨h1, hi, he⟩ := except_bind_ok he
  obtain ⟨po', hp, he⟩ := except_bind_ok he
  obtain ⟨s, -, rfl⟩ := issue_ok hi
  cases he
  exact ⟨by simp, by simpa using hostPO_ok hp⟩

theorem convertResult_mem_po {p : Prec} {target : Option Prec} {po po' : List Word} {h h' : HostState}
    (hc : convertResult p target po h = .ok (po', h')) (hp : readPO h.fpau = .ok po) :
    h'.mem = h.mem ∧ readPO h'.fpau = .ok po' := by
  cases target with
  | none => cases hc; exact ⟨rfl, hp⟩
  | some q =>
    obtain ⟨h1, hi, hc⟩ := except_bind_ok hc
    obtain ⟨po1, hq, hc⟩ := except_bind_ok hc
    obtain ⟨s, -, rfl⟩ := issue_ok hi
    cases hc
    exact ⟨by simp, by simpa using hostPO_ok hq⟩

/-- The one write of memory: a store puts the words from the effective address of its address word, and changes
nothing else of the host. -/
theorem storeWords_ok {prm : HostParams} {addr : Word} {po : List Word} {h h' : HostState}
    (hs : storeWords prm addr po h = .ok h') :
    ∃ dst, effectiveAddr prm h.mem addr = .ok dst ∧ h' = { h with mem := writeWords prm h.mem dst 0 po } := by
  obtain ⟨dst, hd, hs⟩ := except_bind_ok hs
  cases hs
  exact ⟨dst, hd, rfl⟩

/-- The three answers of a set (70_reset_and_hazards.md R158). -/
theorem stepSet_ok {prm : HostParams} {c : ChainSet} {h h' : HostState} {ret : Option ChainReturn}
    (hs : stepSet prm c h = .ok (ret, h')) :
    (c.op = none ∧ ret = some .good ∧ h' = h) ∨
    (∃ op p, c.op = some (op, p) ∧ setMismatch p c = true ∧ ret = some .error ∧ h' = h) ∨
    (∃ op p, c.op = some (op, p) ∧ setMismatch p c = false ∧ ret = none ∧ runSet prm op p c h = .ok h') := by
  unfold stepSet at hs
  split at hs
  · cases hs; exact .inl ⟨‹_›, rfl, rfl⟩
  · rename_i op p hop
    cases hm : setMismatch p c with
    | true => rw [hm] at hs; cases hs; exact .inr (.inl ⟨op, p, hop, hm, rfl, rfl⟩)
    | false =>
      rw [hm] at hs
      simp only [Bool.false_eq_true, if_false] at hs
      split at hs
      · cases hs
      · cases hs; exact .inr (.inr ⟨op, p, hop, hm, rfl, ‹_›⟩)

@[simp] theorem fpPack_words_length (p : Prec) (xe : Bool) (x : Working) :
    (fpPack p xe x).words.length = nWords p := by
  rcases fpPack_cases p xe x with ⟨-, h⟩ | ⟨-, -, h⟩ | ⟨-, -, h⟩ | ⟨-, -, -, h⟩ <;> simp [h]

/-- A transaction that drives PO drives n_P words (10_state.md R26). -/
theorem exec_po_length {i : Instr} {s t : State} {ws : List Word} (he : exec i s = .next t)
    (hp : t.po = some ws) : ws.length = nWords i.prec := by
  rcases exec_next he with ⟨y, rfl⟩ | ⟨v, y, x, -, rfl⟩ | rfl
  · cases hp
  · cases hp; simp
  · cases hp

end Sys2Proof.Machine
end

