-- ==== Sys2Proof/Laws/PerInstr.lean ====
section
/-! SUPPORT. The per-instruction family EncodesLegalWord: every instruction's word is a legal control word,
whatever class and XE it carries (30_encoding.md R57). -/

namespace Sys2Proof.Laws.EncodesLegalWord

/-- The word of the instruction passes the three checks of 30_encoding.md R56, and its FN field is the
instruction's. -/
def Statement (i : Instr) : Prop :=
  (Fields.ofWord (encode i)).wellFormed = true ∧ (Fields.ofWord (encode i)).fn.toNat = encodeFn i

theorem unpk (p : Prec) (xe : Bool) : Statement (.unpk p xe) := by cases p <;> cases xe <;> exact ⟨rfl, rfl⟩
theorem pack (p : Prec) (xe : Bool) : Statement (.pack p xe) := by cases p <;> cases xe <;> exact ⟨rfl, rfl⟩
theorem norm (p : Prec) (xe : Bool) : Statement (.norm p xe) := by cases p <;> cases xe <;> exact ⟨rfl, rfl⟩
theorem rnd (p : Prec) (xe : Bool) : Statement (.rnd p xe) := by cases p <;> cases xe <;> exact ⟨rfl, rfl⟩
theorem add (p : Prec) (xe : Bool) : Statement (.add p xe) := by cases p <;> cases xe <;> exact ⟨rfl, rfl⟩
theorem sub (p : Prec) (xe : Bool) : Statement (.sub p xe) := by cases p <;> cases xe <;> exact ⟨rfl, rfl⟩
theorem mpy (p : Prec) (xe : Bool) : Statement (.mpy p xe) := by cases p <;> cases xe <;> exact ⟨rfl, rfl⟩
theorem div (p : Prec) (xe : Bool) : Statement (.div p xe) := by cases p <;> cases xe <;> exact ⟨rfl, rfl⟩
theorem cmpl (p : Prec) (xe : Bool) : Statement (.cmpl p xe) := by cases p <;> cases xe <;> exact ⟨rfl, rfl⟩
theorem trnc (p : Prec) (xe : Bool) : Statement (.trnc p xe) := by cases p <;> cases xe <;> exact ⟨rfl, rfl⟩
theorem clro (p : Prec) (xe : Bool) : Statement (.clro p xe) := by cases p <;> cases xe <;> exact ⟨rfl, rfl⟩

end Sys2Proof.Laws.EncodesLegalWord
end

