-- ==== Sys2Proof/Tests/Slice0.lean ====
section
/-! SUPPORT. Small tests: the checks of a control word, one word of every function written out from
30_encoding.md, vectors of 95_test_vectors.md for each function, and a witness of the hypotheses of every
statement that has some. -/

namespace Sys2Proof.Tests

open Sys2Proof Sys2Proof.Machine

/-! ## Well-formedness: each check refuses an ill-formed control word (30_encoding.md R56) -/

theorem test_wellFormed_accepts_div_x_e : (Fields.ofWord 0x0057).wellFormed = true := by decide
theorem test_wellFormed_refuses_rsv : (Fields.mk 1 0 1 4).rsvOk = false ∧ (Fields.mk 1 0 1 4).wellFormed = false := by decide
theorem test_wellFormed_refuses_prec : (Fields.mk 0 0 3 4).precOk = false ∧ (Fields.mk 0 0 3 4).wellFormed = false := by decide
theorem test_wellFormed_refuses_fn : (Fields.mk 0 0 1 0xB).fnOk = false ∧ (Fields.mk 0 0 1 0xB).wellFormed = false := by decide

/-! ## Decoding, one word for each function: RSV (9 bits), XE, PREC (2), FN (4) (30_encoding.md R51, R52) -/

theorem test_decode_unpk : decode 0b000000000_0_01_0000 = .ok (.unpk .x false) := by rfl
theorem test_decode_pack : decode 0b000000000_1_01_0001 = .ok (.pack .x true) := by rfl
theorem test_decode_norm : decode 0b000000000_0_10_0010 = .ok (.norm .t false) := by rfl
theorem test_decode_rnd : decode 0b000000000_0_00_0011 = .ok (.rnd .f false) := by rfl
theorem test_decode_add : decode 0b000000000_0_01_0100 = .ok (.add .x false) := by rfl
theorem test_decode_sub : decode 0b000000000_1_01_0101 = .ok (.sub .x true) := by rfl
theorem test_decode_mpy : decode 0b000000000_0_00_0110 = .ok (.mpy .f false) := by rfl
theorem test_decode_div : decode 0b000000000_1_01_0111 = .ok (.div .x true) := by rfl
theorem test_decode_cmpl : decode 0b000000000_1_00_1000 = .ok (.cmpl .f true) := by rfl
theorem test_decode_trnc : decode 0b000000000_0_10_1001 = .ok (.trnc .t false) := by rfl
theorem test_decode_clro : decode 0b000000000_1_10_1010 = .ok (.clro .t true) := by rfl
theorem test_table_word_needs_16_bits : decodeTableWord 16 0x14 = some (.add .x false) ∧
    decodeTableWord 16 0x10014 = none ∧ decodeTableWord 32 0x10014 = none := by decide

/-! ## One transaction of each function, from the vectors of 95_test_vectors.md -/

/-- A state with the word and the operands presented and O as given. -/
def presented (w : Word) (o : OFlag) (a b : Option Working) (pi : List Word) : State :=
  { State.reset with cw := some w, o := o, a := a, b := b, pi := pi }

/-- The step answers a next state with these outputs. -/
def drives (r : Result) (o : OFlag) (y : Option Working) (po : Option (List Word)) (st : Status) : Bool :=
  match r with
  | .next s => decide (s.o = o) && decide (s.y = y) && decide (s.po = po) && decide (s.st = some st)
  | .fault _ => false
  | .refused _ => false

/-- VU13. -/
theorem test_unpk_x : drives (step (presented 0x0010 .unwritten none none [0x5555, 0x5555, 0x55FF]))
    .unwritten (some ⟨0x5555555555000000, -1⟩) none .value = true := by decide
/-- VU15. -/
theorem test_unpk_f : drives (step (presented 0x0000 (.written true) none none [0x7FFF, 0xFFFE]))
    (.written true) (some ⟨0x7FFFFF0000000000, 127⟩) none .value = true := by decide
/-- VP4: negative renormalization. -/
theorem test_pack_renormalizes : drives (step (presented 0x0011 (.written false) (some ⟨0xBFFFFFFFFF800001, 1⟩) none []))
    (.written false) (some ⟨0x8000000000000000, 0⟩) (some [0x8000, 0, 0]) .value = true := by decide
/-- VP30: negative overflow, class T. -/
theorem test_pack_overflow_t : drives (step (presented 0x0021 (.written false) (some ⟨0x8000000000000000, 200⟩) none []))
    (.written true) (some ⟨0x8000000000000000, 200⟩) (some [0x8000, 0, 0, 0x00FE]) .overflow = true := by decide
/-- VN4. -/
theorem test_norm_minus_one : drives (step (presented 0x0012 (.written true) (some ⟨0xFFFFFFFFFFFFFFFF, 0⟩) none []))
    (.written true) (some ⟨0x8000000000000000, -63⟩) none .value = true := by decide +kernel
/-- VO10: NORM before the first CLRO, VN1. -/
theorem test_norm_before_clro : drives (step (presented 0x0012 .unwritten (some ⟨1, 5⟩) none []))
    .unwritten (some ⟨0x4000000000000000, -57⟩) none .value = true := by decide +kernel
/-- VR3: positive carry-out. -/
theorem test_rnd_carry : drives (step (presented 0x0013 (.written false) (some ⟨0x7FFFFFFFFFFFFFFF, 0⟩) none []))
    (.written false) (some ⟨0x4000000000000000, 1⟩) none .value = true := by decide
/-- VR11: class F, negative. -/
theorem test_rnd_f : drives (step (presented 0x0003 (.written false) (some ⟨0xAAAAAAAAAAAAAAAB, 0⟩) none []))
    (.written false) (some ⟨0xAAAAAB0000000000, 0⟩) none .value = true := by decide
/-- VA13. -/
theorem test_add_negative_tie : drives (step (presented 0x0014 (.written true) (some ⟨0x8000000000000000, 0⟩) (some ⟨0xC000000000000000, -39⟩) []))
    (.written true) (some ⟨0xBFFFFFFFFFC00000, 1⟩) (some [0x8000, 0, 0]) .value = true := by decide
/-- VO9: ADD before the first CLRO is a model fault. -/
theorem test_add_before_clro :
    exec (.add .x false) (presented 0x0014 .unwritten (some ⟨0x6000000000000000, 1⟩) (some ⟨0x4800000000000000, 2⟩) [])
      = .fault .overflowFlagUnwritten := by rfl
/-- VS7. -/
theorem test_sub_overflow : drives (step (presented 0x0015 (.written false) (some ⟨0x7FFFFFFFFF000000, 127⟩) (some ⟨0x8000000000000000, 127⟩) []))
    (.written true) (some ⟨0x7FFFFFFFFF800000, 128⟩) (some [0x7FFF, 0xFFFF, 0xFFFE]) .overflow = true := by decide
/-- VS3. -/
theorem test_sub_zero_minuend : drives (step (presented 0x0015 (.written false) (some ⟨0, 3⟩) (some ⟨0x6000000000000000, 1⟩) []))
    (.written false) (some ⟨0xA000000000000000, 1⟩) (some [0xA000, 0, 2]) .value = true := by decide
/-- VM2. -/
theorem test_mpy_sign : drives (step (presented 0x0016 (.written false) (some ⟨0xA000000000000000, 1⟩) (some ⟨0x4800000000000000, 2⟩) []))
    (.written false) (some ⟨0xE500000000000000, 4⟩) (some [0x9400, 0, 4]) .value = true := by decide
/-- VM9. -/
theorem test_mpy_underflow : drives (step (presented 0x0016 (.written false) (some ⟨0x4000000000000000, -100⟩) (some ⟨0x4000000000000000, -100⟩) []))
    (.written true) (some ⟨0x1000000000000000, -199⟩) (some [0, 0, 0]) .underflow = true := by decide
/-- VD3. -/
theorem test_div_negative_third : drives (step (presented 0x0017 (.written false) (some ⟨0xC000000000000000, 1⟩) (some ⟨0x6000000000000000, 2⟩) []))
    (.written false) (some ⟨0xAAAAAAAAAAAAAAAB, -1⟩) (some [0xAAAA, 0xAAAA, 0xABFF]) .value = true := by decide
/-- VD5. -/
theorem test_div_by_zero : drives (step (presented 0x0017 (.written false) (some ⟨0xC000000000000000, 1⟩) (some ⟨0, 7⟩) []))
    (.written true) (some ⟨0x8000000000000000, 128⟩) (some [0x8000, 0, 0x00FE]) .overflow = true := by decide
/-- VC2. -/
theorem test_cmpl_edge : drives (step (presented 0x0018 (.written false) (some ⟨0x8000000000000000, 0⟩) none []))
    (.written false) (some ⟨0x4000000000000000, 1⟩) (some [0x4000, 0, 2]) .value = true := by decide
/-- VC8. -/
theorem test_cmpl_one_unit : drives (step (presented 0x0018 (.written false) (some ⟨1, 0⟩) none []))
    (.written false) (some ⟨0xFFFFFFFFFFFFFFFF, 0⟩) (some [0x8000, 0, 0x0083]) .value = true := by decide +kernel
/-- VT10. -/
theorem test_trnc_masks : drives (step (presented 0x0019 (.written false) (some ⟨0x7FFFFFFFFFC00000, 39⟩) none []))
    (.written false) (some ⟨0x7FFFFFFFFF000000, 39⟩) (some [0x7FFF, 0xFFFF, 0xFF4E]) .value = true := by decide
/-- VT19. -/
theorem test_trnc_negative : drives (step (presented 0x0019 (.written false) (some ⟨0xAAAAAAAAAAAAAAAB, 3⟩) none []))
    (.written false) (some ⟨0xB000000000000000, 3⟩) (some [0xB000, 0, 6]) .value = true := by decide
/-- VO1. -/
theorem test_clro : drives (step (presented 0x001A (.written true) none none []))
    (.written false) none none .value = true := by decide
/-- VO6: an UNIMPL word leaves O alone. -/
theorem test_unimpl : drives (step (presented 0x001B (.written true) none none []))
    (.written true) none none .unimpl = true := by decide
/-- VP21, as far as the open byte XE_PACK(511) leaves it stated. -/
theorem test_pack_expanded_overflow :
    (fpPack .x true ⟨0x4000000000000000, 600⟩).st = .overflow ∧
    (fpPack .x true ⟨0x4000000000000000, 511⟩).st = .value := by decide

/-- The codes of 60_exceptions.md R143. -/
theorem test_status_codes : [Status.value, .overflow, .underflow, .unimpl].map statusCode = [0, 1, 2, 3] := by decide
/-- The host's refusal of a mantissa out of range, 10_state.md R30. -/
theorem test_presentA_refuses : presentA (2 ^ 63) 0 State.reset = .refused .mantissaOutOfRange := by rfl

/-! ## Witnesses: a concrete state and operands that meet the hypotheses of each statement -/

/-- O written, 1.5 on A, 2.25 on B, and 1.5 packed on PI. -/
def full : State :=
  presented 0x0014 (.written true) (some ⟨0x6000000000000000, 1⟩) (some ⟨0x4800000000000000, 2⟩) [0x6000, 0, 2, 0]

/-- The same before the first CLRO. -/
def fresh : State := { full with o := .unwritten }

theorem witness_StepPerformsTheDecodedInstruction : full.cw = some 0x0014 ∧ decode 0x0014 = .ok (.add .x false) :=
  ⟨rfl, rfl⟩
theorem witness_IdleStepAndPlacedWord : State.reset.cw = none := rfl
theorem witness_ReservedWordDrivesOnlyUnimpl :
    (presented 0x001B .unwritten none none []).cw = some 0x001B ∧
    reservedWord 0x001B ∧ reservedWord 0x0080 ∧ reservedWord 0x0030 ∧ ¬ reservedWord 0x006A := by
  refine ⟨rfl, .inr (.inr (by decide)), .inl (by decide), .inr (.inl (by decide)), ?_⟩
  unfold reservedWord; decide
theorem witness_ResetLeavesOUnwrittenAndOutputsUndriven : finishing (.pack .x false) = true := rfl
theorem witness_OIsUnwrittenUntilClro :
    fresh.o = .unwritten ∧ (∃ t, step { fresh with cw := some 0x0012 } = .next t) ∧
    decode 0x0012 = .ok (.norm .x false) ∧ finishing (.add .x false) = true ∧ fresh.a ≠ none ∧ fresh.b ≠ none :=
  ⟨rfl, ⟨_, rfl⟩, rfl, rfl, by decide, by decide⟩
theorem witness_LegalBeforeTheFirstClro :
    fresh.o = .unwritten ∧ nWords .t ≤ fresh.pi.length ∧ fresh.a ≠ none ∧ fresh.b ≠ none := by decide
theorem witness_UnpkDrivesTheUnpackedValue : nWords .t ≤ full.pi.length := by decide
/-- For the statements of PACK, NORM and RND, CMPL and TRNC, ADD and SUB, MPY and DIV, and SubIsAddOfTheComplement. -/
theorem witness_DriveTheirResult :
    full.a = some ⟨0x6000000000000000, 1⟩ ∧ full.b = some ⟨0x4800000000000000, 2⟩ ∧ full.o = .written true :=
  ⟨rfl, rfl, rfl⟩
theorem witness_ClroClearsO : ∃ t, exec (.clro .x false) full = .next t ∧ t.o = .written false ∧
    full.o ≠ .written false := ⟨_, rfl, rfl, by decide⟩
theorem witness_CompletesExactlyWhenReady : Ready (.add .x false) full := by
  unfold Ready; decide
theorem witness_OnlyUndrivenOrUnwrittenStops :
    readsA (.add .x false) = true ∧ State.reset.a = none ∧ readsB (.add .x false) = true ∧
    { full with b := none }.a ≠ none ∧ { full with b := none }.b = none ∧
    readsPI (.unpk .x false) = true ∧ ([0x6000, 0] : List Word).length < nWords (.unpk .x false : Instr).prec ∧
    step fresh = .fault .overflowFlagUnwritten := by
  refine ⟨rfl, rfl, rfl, by decide, rfl, rfl, by decide, rfl⟩
/-- For OutputsDrivenByEachFunction, OAccumulatesOverflowAndUnderflow, PackedOutputIsThePackOfY,
PackedResultRepacksToItself and StepKeepsPortsConsistent: a finishing function that completes. -/
theorem witness_completes : ∃ t, exec (.add .x false) full = .next t ∧ finishing (.add .x false) = true ∧
    t.y ≠ none ∧ t.po = some [0x7800, 0, 4] ∧ (Instr.add .x false).xe = false := ⟨_, rfl, rfl, by decide, by decide, rfl⟩
theorem witness_notFinishing : ∃ t, exec (.norm .x false) full = .next t ∧ finishing (.norm .x false) = false ∧
    ∀ p xe, Instr.norm .x false ≠ .clro p xe := ⟨_, rfl, rfl, fun _ _ => nofun⟩
theorem witness_StepKeepsPortsConsistent : PortsConsistent full ∧ ∃ t, step full = .next t := by
  refine ⟨⟨fun _ h => (nomatch h), fun _ h => (nomatch h), fun h => (nomatch h), fun h => (nomatch h), fun _ => ⟨rfl, rfl⟩⟩, ⟨_, rfl⟩⟩
theorem witness_OutputsDependOnlyOnInputsRead :
    SameInputs (.norm .x false) full { full with b := none, pi := [] } ∧ ∃ t, exec (.norm .x false) full = .next t :=
  ⟨by unfold SameInputs; decide, _, rfl⟩
theorem witness_ClassAndXeIgnoredWhereStated :
    (∃ t u, exec (.cmpl .x false) full = .next t ∧ exec (.cmpl .f true) full = .next u) ∧
    (∃ t u, exec (.mpy .x false) full = .next t ∧ exec (.mpy .t true) full = .next u) ∧
    (∃ t u, exec (.trnc .x false) full = .next t ∧ exec (.trnc .f false) full = .next u) :=
  ⟨⟨_, _, rfl, rfl⟩, ⟨_, _, rfl, rfl⟩, ⟨_, _, rfl, rfl⟩⟩
theorem witness_PortsTakeExactlyTheMantissasInRange :
    (-2 ^ 63 ≤ (-2 ^ 63 : Int) ∧ (-2 ^ 63 : Int) < 2 ^ 63) ∧ ¬ (-2 ^ 63 ≤ (2 ^ 63 : Int) ∧ (2 ^ 63 : Int) < 2 ^ 63) := by
  decide
theorem witness_ExponentByteIsRotatedTwosComplement : -128 ≤ (-128 : Int) ∧ (127 : Int) ≤ 127 := by decide
theorem witness_UnpackSignExtendsAndLeftJustifies :
    ([0x8000, 0] : List Word).length = nWords .f ∧ ([0x7FFF, 0, 1] : List Word).length = nWords .x := by decide
/-- One operand for each case of the pack step, at the bounds: zero, −129, 128, 127 and −128; VP8 to VP12. -/
theorem witness_PackTestsZeroUnderflowOverflowThenEncodes :
    (fpRound .x ⟨0, 77⟩).mi = 0 ∧
    ((fpRound .x ⟨0x4000000000000000, -129⟩).mi ≠ 0 ∧ (fpRound .x ⟨0x4000000000000000, -129⟩).e < eMin false) ∧
    ((fpRound .x ⟨0x4000000000000000, 128⟩).mi ≠ 0 ∧ eMax false < (fpRound .x ⟨0x4000000000000000, 128⟩).e) ∧
    ((fpRound .x ⟨0x4000000000000000, 127⟩).mi ≠ 0 ∧ eMin false ≤ (fpRound .x ⟨0x4000000000000000, 127⟩).e ∧
      (fpRound .x ⟨0x4000000000000000, 127⟩).e ≤ eMax false) ∧
    (-2 ^ 63 ≤ (2 ^ 62 : Int) ∧ (2 ^ 62 : Int) < 2 ^ 63) := by decide
theorem witness_PackedSentinelsAreTheTable :
    (fpRound .f ⟨0x8000000000000000, 512⟩).mi ≠ 0 ∧ eMax true < (fpRound .f ⟨0x8000000000000000, 512⟩).e ∧
    (fpRound .t ⟨0x4000000000000000, 128⟩).mi ≠ 0 ∧ eMax false < (fpRound .t ⟨0x4000000000000000, 128⟩).e := by decide
theorem witness_ZeroPacksToTheAllZeroPattern :
    { full with a := some ⟨0, 77⟩ }.a = some ⟨0#64, 77⟩ ∧ full.o = .written true := ⟨rfl, rfl⟩
theorem witness_ExpandedExponentPacksWithXePackByte :
    (fpRound .x ⟨0x4000000000000000, 511⟩).mi ≠ 0 ∧ (fpRound .x ⟨0x4000000000000000, 511⟩).e = 511 ∧
    (fpRound .x ⟨0x4000000000000000, -512⟩).mi ≠ 0 ∧ (fpRound .x ⟨0x4000000000000000, -512⟩).e = -512 := by decide
theorem witness_PackOfUnpackIsIdentity :
    ([0x8000, 0, 1] : List Word).length = nWords .x ∧ fieldNormalized .x [0x8000, 0, 1] := by
  refine ⟨by decide, ?_⟩; unfold fieldNormalized; decide
theorem witness_OverflowClampsToTheSentinelOfYsSign : ∃ t, exec (.pack .x false)
    (presented 0x0011 (.written false) (some ⟨0x8000000000000000, 128⟩) none []) = .next t ∧
    t.y = some ⟨0x8000000000000000, 128⟩ ∧ t.st = some .overflow := ⟨_, rfl, by decide, by decide⟩
theorem witness_UnderflowForcesExactZero : ∃ t, exec (.pack .x false)
    (presented 0x0011 (.written false) (some ⟨0xC000000000000000, -128⟩) none []) = .next t ∧
    t.y = some ⟨0x8000000000000000, -129⟩ ∧ t.st = some .underflow := ⟨_, rfl, by decide, by decide⟩
theorem witness_NormalizeShiftsToCanonicalForm :
    (⟨1, 5⟩ : Working).mi ≠ 0 ∧ (⟨0x8000000000000000, 9⟩ : Working).m ≠ 0#64 ∧
    (⟨0x8000000000000000, 9⟩ : Working).m.getLsbD 63 ≠ (⟨0x8000000000000000, 9⟩ : Working).m.getLsbD 62 := by decide
/-- The tie of VP1 and the tie of VP3: both d = H_X, one of each sign. -/
theorem witness_RoundsToNearestTiesToLargerMagnitude :
    (⟨0x4000000000800000, 1⟩ : Working).mi ≠ 0 ∧
    fpNormalize ⟨0x4000000000800000, 1⟩ = ⟨0x4000000000800000, 1⟩ ∧
    fpClear .x (fpRound .x ⟨0x4000000000800000, 1⟩) = ⟨0x4000000001000000, 1⟩ ∧
    (⟨0xBFFFFFFFFF800000, 1⟩ : Working).mi ≠ 0 ∧
    fpNormalize ⟨0xBFFFFFFFFF800000, 1⟩ = ⟨0xBFFFFFFFFF800000, 1⟩ ∧
    fpClear .x (fpRound .x ⟨0xBFFFFFFFFF800000, 1⟩) = ⟨0xBFFFFFFFFF000000, 1⟩ := by decide
/-- The first value that carries out (VP5), the first that renormalizes (VP4), and one beside each (VP6, VP3). -/
theorem witness_RoundKeepsSignAndBoundsTheExponent :
    2 ^ 63 ≤ (fpNormalize ⟨0x7FFFFFFFFF800000, 1⟩).mi + halfUnit .x ∧
    ((fpNormalize ⟨0xBFFFFFFFFF800001, 1⟩).mi < 0 ∧
      -2 ^ 62 ≤ (fpNormalize ⟨0xBFFFFFFFFF800001, 1⟩).mi + (halfUnit .x - 1)) ∧
    ((fpNormalize ⟨0x7FFFFFFFFF7FFFFF, 1⟩).mi + halfUnit .x < 2 ^ 63 ∧ 0 ≤ (fpNormalize ⟨0x7FFFFFFFFF7FFFFF, 1⟩).mi) ∧
    ((fpNormalize ⟨0xBFFFFFFFFF800000, 1⟩).mi + (halfUnit .x - 1) < -2 ^ 62) := by decide
theorem witness_RndTwiceIsRndOnce : ∃ t, exec (.rnd .x false) full = .next t := ⟨_, rfl⟩
/-- Each clause of add: a zero operand on either side, d = M + 2 both ways, and d = M + 1 (VA5, VA6, VA9, VA8),
with a sum that fits and one that does not (VA3). -/
theorem witness_AddAlignsAndSums :
    (⟨0, 9⟩ : Working).mi = 0 ∧ (⟨0x6000000000000000, 1⟩ : Working).mi ≠ 0 ∧
    (keptBits .x : Int) + 1 < 43 - 1 ∧ (42 : Int) - 1 ≤ (keptBits .x : Int) + 1 ∧
    (-2 ^ 63 ≤ (⟨0x4000000000000000, 42⟩ : Working).mi / 2 ^ (42 - 42) + (⟨0x7FFFFFFFFF000000, 1⟩ : Working).mi / 2 ^ (42 - 1) ∧
      (⟨0x4000000000000000, 42⟩ : Working).mi / 2 ^ (42 - 42) + (⟨0x7FFFFFFFFF000000, 1⟩ : Working).mi / 2 ^ (42 - 1) < 2 ^ 63) ∧
    ¬ (-2 ^ 63 ≤ (⟨0x8000000000000000, 0⟩ : Working).mi + (⟨0x8000000000000000, 0⟩ : Working).mi) := by decide
theorem witness_AddOverflowIsTheSignTest :
    (addAligned (2 ^ 63 - 1) 1 0).e = 0 + 1 ∧ (addAligned (-2 ^ 63) (-1) 0).e = 0 + 1 ∧
    (addAligned (2 ^ 63 - 1) (-2 ^ 63) 0).e ≠ 0 + 1 := by decide
theorem witness_AddZeroIdentityAndCommutativity : (⟨1, 0⟩ : Working).mi ≠ 0 := by decide
theorem witness_SubtractingAnOperandFromItselfGivesZero :
    { full with a := some ⟨0x8000000000000000, 3⟩, b := some ⟨0x8000000000000000, 3⟩ }.a = some ⟨0x8000000000000000, 3⟩ ∧
    { full with a := some ⟨0x8000000000000000, 3⟩, b := some ⟨0x8000000000000000, 3⟩ }.b = some ⟨0x8000000000000000, 3⟩ ∧
    full.o = .written true := ⟨rfl, rfl, rfl⟩
theorem witness_ComplementNegatesExactly :
    (⟨0x8000000000000000, 0⟩ : Working).mi = -2 ^ 63 ∧ (⟨0x8000000000000001, 0⟩ : Working).mi ≠ -2 ^ 63 := by decide
theorem witness_SplitProductIsTheExactFloor :
    1 ≤ 2 ^ 63 ∧ 2 ^ 63 ≤ 2 ^ 63 ∧ splitProduct (2 ^ 63) (2 ^ 63) = 2 ^ 62 := by decide
theorem witness_MultiplyTruncatesTheSignedProduct :
    (⟨0, 9⟩ : Working).mi = 0 ∧ (⟨0x8000000000000000, 0⟩ : Working).mi ≠ 0 ∧ (⟨1, 0⟩ : Working).mi ≠ 0 := by decide
theorem witness_DivideAndCorrectIsTheExactFloor :
    (0 : Int) ≤ 2 ^ 62 ∧ (2 ^ 62 : Int) ≤ 2 ^ 63 ∧ (2 ^ 62 : Int) < 2 ^ 63 ∧ (0 : Int) ≤ 0 := by decide
/-- The two extreme quotients: 1 ÷ −1 (VD9) has Q = 2^61, −1 ÷ 0.5 (VD8) has Q = 2^63. -/
theorem witness_DivideTruncatesTheSignedQuotient :
    (fpDiv .x false ⟨0x4000000000000000, 1⟩ ⟨0x8000000000000000, 0⟩).mi = -2 ^ 61 ∧
    (fpDiv .x false ⟨0x8000000000000000, 0⟩ ⟨0x4000000000000000, 0⟩).mi = -2 ^ 63 ∧
    (⟨0, 0⟩ : Working).mi = 0 ∧ (⟨0x4000000000000000, 1⟩ : Working).mi ≠ 0 := by decide
theorem witness_DivisionByZeroGivesTheDividendsSentinel :
    { full with b := some ⟨0, 7⟩ }.b = some ⟨0, 7⟩ ∧ (⟨0, 7⟩ : Working).mi = 0 ∧ (⟨0xC000000000000000, 1⟩ : Working).mi ≠ 0 := by
  decide
/-- The clauses of truncate meet at e = 0 and 1 and at e = 62 and 63 (VT6, VT8, VT18, VT17). -/
theorem witness_TruncateIsTowardZero :
    fpTrunc ⟨0x8000000000000000, 0⟩ = ⟨0, 0⟩ ∧ fpTrunc ⟨0x4000000000000000, 1⟩ = ⟨0x4000000000000000, 1⟩ ∧
    fpTrunc ⟨0x5555555555555555, 62⟩ = ⟨0x5555555555555554, 62⟩ ∧
    fpTrunc ⟨0x8000000000000000, 63⟩ = ⟨0x8000000000000000, 63⟩ := by decide
theorem witness_TruncateOfMinusOneIsZero :
    (⟨0x8000000000000001, 0⟩ : Working).e ≤ 0 ∧ (⟨0x8000000000000001, 0⟩ : Working) ≠ ⟨0x8000000000000000#64, 0⟩ := by decide
theorem witness_TruncateTwiceIsTruncateOnce : ∃ t, exec (.trnc .x false) full = .next t := ⟨_, rfl⟩

/-- A host with 1.5 and 2.25 in memory, just after reset. -/
def host : HostState where
  fpau := State.reset
  mem := [(0x100, 0x6000), (0x101, 0), (0x102, 2), (0x103, 0x4800), (0x104, 0), (0x105, 4)]
  accF := .zero
  accX := .zero
  accT := .zero
  reg0 := 0
  reg1 := 0
  statusOv := true
  modifier := true

/-- Values for the open host parameters, for these tests only. -/
def params : HostParams := ⟨15, 15⟩

theorem witness_HostStoreThenFetchAndFrame :
    0x7FFD + ([1, 2, 3] : List Word).length ≤ 2 ^ params.vaBits ∧
    ∀ i < 3, 0x100 ≠ wordAddr params 0x200 i := by decide
theorem witness_ChainTerminalsIssueNoTransaction :
    (ChainSet.mk none 0 0 0 0 none 0 0).op = none ∧
    ((ChainSet.mk (some (.add, .x)) 2 0x100 3 0x103 none 0 0).count1 ≠ 0 ∧
      (ChainSet.mk (some (.add, .x)) 2 0x100 3 0x103 none 0 0).count1 ≠ nWords .x) ∧
    ((ChainSet.mk (some (.trnc, .x)) 3 0x100 4 0x103 none 0 0).count2 ≠ 0 ∧
      (ChainSet.mk (some (.trnc, .x)) 3 0x100 4 0x103 none 0 0).count2 ≠ nWords .x) ∧
    ((ChainSet.mk (some (.trnc, .x)) 3 0x100 0 0 none 2 0x200).resultCount ≠ 0 ∧
      (ChainSet.mk (some (.trnc, .x)) 3 0x100 0 0 none 2 0x200).resultCount ≠ nWords .x) := by decide
/-- A set whose three declared counts are each zero or n_P has no mismatch (70_reset_and_hazards.md R158). -/
theorem test_counts_of_zero_or_class_length_match :
    setMismatch .x (ChainSet.mk (some (.trnc, .x)) 3 0x100 0 0 none 3 0x200) = false ∧
    setMismatch .t (ChainSet.mk (some (.add, .t)) 0 0 4 0x100 none 0 0) = false := by decide
/-- 1.5 + 2.25 = 3.75 as a top-level opcode from a host just after reset (step 1 to 4 of Program 1 of
95_test_vectors.md): O and the status bit are 0 after it. -/
theorem witness_ArithOpcodeDoesNotDependOnTheEarlierO :
    ∃ h, arithOpcode params .add .x (.memory 0x100) (.memory 0x103) (.memory 0x106) host = .ok h ∧
      h.accX = ⟨0x7800000000000000, 2⟩ ∧ h.statusOv = false := ⟨_, rfl, by decide, rfl⟩
theorem witness_ChainNeverClearsO :
    ∃ h, runChain params [ChainSet.mk (some (.add, .x)) 3 0x100 3 0x103 none 0 0, ChainSet.mk none 0 0 0 0 none 0 0]
      { host with fpau := { State.reset with o := .written true } } = .ok (.good, h) ∧
      h.accX = ⟨0x7800000000000000, 2⟩ := ⟨_, rfl, by decide⟩

/-- A format of sets for these tests: eight words in R158's order, 1 the addition of class X, 0x7800 the sentinel. -/
def format : ChainFormat := ⟨[(1, .add, .x)], 0x7800, [], 0, 8, 0, 1, 2, 3, 4, 5, 6, 7⟩

/-- The host with a chain at 0x200: 1.5 + 2.25, stored over the second set, whose operation code is in no table. -/
def chainHost : HostState :=
  { host with
    fpau := { State.reset with o := .written false }
    modifier := false
    mem := host.mem ++ [(0x200, 1), (0x201, 3), (0x202, 0x100), (0x203, 3), (0x204, 0x103), (0x205, 0), (0x206, 3),
      (0x207, 0x208), (0x208, 0xFFFF)] }

theorem witness_ChainReadsEachSetAfterTheEarlierStores :
    readSet params format chainHost.mem 0x200 =
      .ok ⟨some (.add, .x), 3, 0x100, 3, 0x103, none, 3, 0x208⟩ ∧
    setMismatch .x ⟨some (.add, .x), 3, 0x100, 3, 0x103, none, 3, 0x208⟩ = false ∧
    effectiveAddr params chainHost.mem 0x208 = .ok 0x208 ∧
    (∃ h, runSet params .add .x ⟨some (.add, .x), 3, 0x100, 3, 0x103, none, 3, 0x208⟩ chainHost = .ok h) ∧
    (∃ h, runSet params .add .x ⟨some (.add, .x), 3, 0x100, 3, 0x103, none, 0, 0⟩ chainHost = .ok h) :=
  ⟨rfl, rfl, rfl, ⟨_, rfl⟩, ⟨_, rfl⟩⟩

/-- The first set's store puts 0x7800, the first word of 3.75, where the second set's operation code stands; the
engine reads it when it reaches that set (20_memory.md R50). -/
theorem test_chain_sees_the_store_over_a_later_set :
    readSet params format chainHost.mem 0x208 = .error (.unimplementedCode 0xFFFF) ∧
    ∃ h, runChainAt params format 2 0x200 chainHost = .ok (.good, h) ∧ readWord h.mem 0x208 = some 0x7800 :=
  ⟨rfl, _, rfl, by decide⟩

/-- An opcode's store is seen by the next opcode's read of its address word at 0x106 (20_memory.md R50). -/
theorem test_opcode_sees_the_store_over_its_address_word :
    let h0 := { host with mem := host.mem ++ [(0x200, 0x100), (0x201, 0x103), (0x202, 0x106), (0x7800, 0x6000),
      (0x7801, 0), (0x7802, 2)] }
    arithOpcodeAt params .trnc .x ⟨true, false, false⟩ 0x106 h0 = .error (.unwrittenMemory 0x106) ∧
    ∃ h1, arithOpcodeAt params .add .x ⟨true, true, true⟩ 0x200 h0 = .ok h1 ∧
      (readOperandRef params h1.mem 0x106 true 0) = .ok (.memory 0x7800, 1) := ⟨rfl, _, rfl, rfl⟩

end Sys2Proof.Tests
end

section
/-! Where a transaction stops (00_scope.md R15; 10_state.md R20): the first stop of an instruction, read off the ports
and O alone, and the proof that `exec` stops there and nowhere else. -/

namespace Sys2Proof.Machine

/-! ## The stop of each shared operation -/

/-- What reading port A stops with, if A is undriven. -/
def stopA (s : State) : Option Fault := if s.a = none then some (.undrivenPort .a) else none

/-- What reading port B stops with, if B is undriven. -/
def stopB (s : State) : Option Fault := if s.b = none then some (.undrivenPort .b) else none

/-- What reading n_P words of PI stops with, if fewer are driven. -/
def stopPI (p : Prec) (s : State) : Option Fault :=
  if s.pi.length < nWords p then some (.undrivenPort .pi) else none

/-- What O's update stops with before the first CLRO. -/
def stopO (s : State) : Option Fault := if s.o = .unwritten then some .overflowFlagUnwritten else none

/-- An outcome decided by its stop: that fault where there is one, a next state where there is none. -/
def DecidedBy (r : Result) : Option Fault → Prop
  | some f => r = .fault f
  | none => ∃ t, r = .next t

section
variable {s : State} {o : Option Fault}

theorem DecidedBy.ne_refused {r : Result} (h : DecidedBy r o) (e : Refusal) : r ≠ .refused e := by
  rintro rfl
  cases o with
  | some f => exact nomatch h
  | none => obtain ⟨t, ht⟩ := h; exact nomatch ht

theorem DecidedBy.eq_some_of_fault {f : Fault} (h : DecidedBy (.fault f) o) : o = some f := by
  cases o with
  | some g => cases h; rfl
  | none => obtain ⟨t, ht⟩ := h; exact nomatch ht

theorem withA_decidedBy {k : Working → Result} (hk : ∀ a, DecidedBy (k a) o) :
    DecidedBy (withA s k) (stopA s <|> o) := by
  cases ha : s.a with
  | none => simp [stopA, withA, ha, DecidedBy]
  | some a => simpa [stopA, ha, withA_of_driven k ha] using hk a

theorem withB_decidedBy {k : Working → Result} (hk : ∀ b, DecidedBy (k b) o) :
    DecidedBy (withB s k) (stopB s <|> o) := by
  cases hb : s.b with
  | none => simp [stopB, withB, hb, DecidedBy]
  | some b => simpa [stopB, hb, withB_of_driven k hb] using hk b

theorem withPI_decidedBy {p : Prec} {k : List Word → Result} (hk : ∀ ws, DecidedBy (k ws) o) :
    DecidedBy (withPI p s k) (stopPI p s <|> o) := by
  by_cases hpi : nWords p ≤ s.pi.length
  · simpa [stopPI, Nat.not_lt.mpr hpi, withPI_of_driven k hpi] using hk _
  · simp [stopPI, withPI, hpi, Nat.lt_of_not_le hpi, DecidedBy]

theorem completeValue_decidedBy (y : Working) : DecidedBy (completeValue s y) none := ⟨_, rfl⟩

theorem completePacked_decidedBy (k : Packed) (y : Working) : DecidedBy (completePacked s k y) (stopO s) := by
  cases ho : s.o with
  | unwritten => simp [stopO, completePacked, withOrO, ho, DecidedBy]
  | written v => simp [stopO, completePacked_of_written k y ho, ho, DecidedBy]

end

/-! ## The first stop of an instruction -/

/-- The first stop of an instruction: A, B, PI, then O, each only where the instruction reads or updates it (the order
A, B, O is log entry 5). -/
def firstStop (i : Instr) (s : State) : Option Fault :=
  (if readsA i then stopA s else none) <|> (if readsB i then stopB s else none) <|>
    (if readsPI i then stopPI i.prec s else none) <|> (if finishing i then stopO s else none)

/-- An instruction stops at its first stop, and completes where it has none. -/
theorem exec_decidedBy_firstStop (i : Instr) (s : State) : DecidedBy (exec i s) (firstStop i s) := by
  cases i with
  | unpk p xe => exact withPI_decidedBy fun _ => completeValue_decidedBy _
  | norm p xe | rnd p xe => exact withA_decidedBy fun _ => completeValue_decidedBy _
  | pack p xe | cmpl p xe | trnc p xe => exact withA_decidedBy fun _ => completePacked_decidedBy _ _
  | add p xe | sub p xe | mpy p xe | div p xe =>
    exact withA_decidedBy fun _ => withB_decidedBy fun _ => completePacked_decidedBy _ _
  | clro p xe => exact ⟨_, rfl⟩

theorem exec_eq_fault {i : Instr} {s : State} {f : Fault} (h : firstStop i s = some f) : exec i s = .fault f := by
  have hd := exec_decidedBy_firstStop i s
  rwa [h] at hd

theorem firstStop_of_exec_fault {i : Instr} {s : State} {f : Fault} (h : exec i s = .fault f) :
    firstStop i s = some f := by
  have hd := exec_decidedBy_firstStop i s
  rw [h] at hd
  exact hd.eq_some_of_fault

/-- An instruction is ready exactly when nothing stops it. -/
theorem ready_iff_firstStop_eq_none (i : Instr) (s : State) : Ready i s ↔ firstStop i s = none := by
  simp [Ready, firstStop, stopA, stopB, stopPI, stopO]

/-- UNPK, the one reader of PI, reads neither A nor B. -/
theorem readsPI_excludes_readsA_readsB {i : Instr} (h : readsPI i = true) : readsA i = false ∧ readsB i = false := by
  cases i with
  | unpk p xe => exact ⟨rfl, rfl⟩
  | _ => exact nomatch h

section
variable {i : Instr} {s : State}

theorem firstStop_of_undriven_a (hi : readsA i = true) (ha : s.a = none) :
    firstStop i s = some (.undrivenPort .a) := by
  simp [firstStop, stopA, hi, ha]

theorem firstStop_of_undriven_b (hi : readsB i = true) (ha : s.a ≠ none) (hb : s.b = none) :
    firstStop i s = some (.undrivenPort .b) := by
  simp [firstStop, stopA, stopB, hi, ha, hb]

theorem firstStop_of_short_pi (hi : readsPI i = true) (hpi : s.pi.length < nWords i.prec) :
    firstStop i s = some (.undrivenPort .pi) := by
  obtain ⟨hA, hB⟩ := readsPI_excludes_readsA_readsB hi
  simp [firstStop, stopPI, hA, hB, hi, hpi]

end

/-! ## One step -/

/-- Everything a step can be: nothing presented, UNIMPL, or the decoded instruction. -/
theorem step_cases (s : State) :
    step s = .next s ∨ step s = .next (unimplemented s) ∨
      ∃ w i, s.cw = some w ∧ decode w = .ok i ∧ step s = exec i s := by
  cases hw : s.cw with
  | none => exact .inl (by simp [step, fetchWord, hw])
  | some w =>
    cases hd : decode w with
    | error r => exact .inr (.inl (by simp [step, fetchWord, hw, hd]))
    | ok i => exact .inr (.inr ⟨w, i, rfl, hd, by simp [step, fetchWord, hw, hd]⟩)

theorem step_ne_refused (s : State) (r : Refusal) : step s ≠ .refused r := by
  obtain h | h | ⟨_, i, _, _, h⟩ := step_cases s <;> rw [h]
  · nofun
  · nofun
  · exact (exec_decidedBy_firstStop i s).ne_refused r

theorem step_fault {s : State} {f : Fault} (h : step s = .fault f) :
    ∃ w i, s.cw = some w ∧ decode w = .ok i ∧ exec i s = .fault f := by
  obtain hs | hs | ⟨w, i, hw, hd, hs⟩ := step_cases s <;> rw [hs] at h
  · cases h
  · cases h
  · exact ⟨w, i, hw, hd, h⟩

theorem not_ready_of_exec_fault {i : Instr} {s : State} {f : Fault} (h : exec i s = .fault f) : ¬ Ready i s := by
  simp [ready_iff_firstStop_eq_none, firstStop_of_exec_fault h]

/-- Settles O18: each clause reads the first stop of the instruction. -/
theorem onlyUndrivenOrUnwrittenStops : Obligations.OnlyUndrivenOrUnwrittenStops := by
  refine ⟨fun i s hi ha => exec_eq_fault (firstStop_of_undriven_a hi ha),
    fun i s hi ha hb => exec_eq_fault (firstStop_of_undriven_b hi ha hb),
    fun i s hi hpi => exec_eq_fault (firstStop_of_short_pi hi hpi), step_ne_refused, fun s f h => ?_⟩
  obtain ⟨w, i, hw, hd, he⟩ := step_fault h
  exact ⟨w, i, hw, hd, not_ready_of_exec_fault he⟩

end Sys2Proof.Machine
end

section
/-! The rounder on values it has rounded and cleared: round answers zero or a normalized value (41_normalize_round.md
R84), and packing what RND or PACK leaves on Y packs the operand itself (R87; 40_codec.md R69). -/

namespace Sys2Proof.Machine

/-! ## Normalized mantissas as integers -/

/-- The top two bits differ exactly on a mantissa outside [−2^62, 2^62) (00_scope.md R17). -/
theorem top_bits_differ_iff (m : Mantissa) :
    m.getLsbD 63 ≠ m.getLsbD 62 ↔ 2 ^ 62 ≤ m.toInt ∨ m.toInt < -2 ^ 62 := by
  have hlt := m.isLt
  simp only [← BitVec.testBit_toNat, Nat.testBit_eq_decide_div_mod_eq, BitVec.toInt_eq_toNat_cond, ne_eq,
    decide_eq_decide]
  omega

theorem normalized_iff (x : Working) : normalized x ↔ 2 ^ 62 ≤ x.mi ∨ x.mi < -2 ^ 62 := by
  have hbits : x.m.getLsbD 63 ≠ x.m.getLsbD 62 ↔ 2 ^ 62 ≤ x.mi ∨ x.mi < -2 ^ 62 := top_bits_differ_iff x.m
  rw [normalized, hbits, ne_eq, ← mi_eq_zero_iff]
  omega

/-- Doubling a mantissa whose top two bits are equal loses nothing (41_normalize_round.md R81). -/
theorem toInt_shiftLeft_one {m : Mantissa} (h : m.getLsbD 63 = m.getLsbD 62) : (m <<< 1).toInt = m.toInt * 2 := by
  have hm : ¬ (2 ^ 62 ≤ m.toInt ∨ m.toInt < -2 ^ 62) := mt (top_bits_differ_iff m).mpr (not_not.mpr h)
  have hlt := m.isLt
  simp only [BitVec.toInt_eq_toNat_cond, BitVec.toNat_shiftLeft, Nat.shiftLeft_eq] at *
  omega

/-! ## Normalize -/

/-- The loop ends on a normalized mantissa if the doublings it may make reach one. -/
theorem fpNormalizeLoop_normalized (n : Nat) (m : Mantissa) (e : Int)
    (h : 2 ^ 62 ≤ m.toInt * 2 ^ n ∨ m.toInt * 2 ^ n < -2 ^ 62) : normalized (fpNormalizeLoop n m e) := by
  induction n generalizing m e with
  | zero => simpa [normalized_iff, fpNormalizeLoop, Working.mi] using h
  | succ n ih =>
    unfold fpNormalizeLoop
    split
    · next heq => exact ih _ _ (by rwa [toInt_shiftLeft_one heq, mul_assoc, ← pow_succ'])
    · next hne => exact (normalized_iff _).mpr ((top_bits_differ_iff m).mp hne)

theorem fpNormalize_normalized {x : Working} (hx : x.mi ≠ 0) : normalized (fpNormalize x) := by
  unfold fpNormalize
  rw [if_neg (mt (mi_eq_zero_iff x).mpr hx)]
  refine fpNormalizeLoop_normalized 63 x.m x.e ?_
  change 2 ^ 62 ≤ x.mi * 2 ^ 63 ∨ x.mi * 2 ^ 63 < -2 ^ 62
  omega

theorem fpNormalize_of_normalized {x : Working} (hx : normalized x) : fpNormalize x = x := by
  obtain ⟨hm, htop⟩ := hx
  rw [fpNormalize, if_neg hm, fpNormalizeLoop, if_neg htop]

theorem fpNormalize_zero_or_normalized (x : Working) : fpNormalize x = Working.zero ∨ normalized (fpNormalize x) := by
  by_cases hx : x.mi = 0
  · exact .inl (by simp [fpNormalize, (mi_eq_zero_iff x).mp hx])
  · exact .inr (fpNormalize_normalized hx)

/-! ## Round -/

/-- A value whose integer mantissa is in range and outside [−2^62, 2^62) is normalized. -/
theorem narrow_normalized {m : Int} (e : Int) (hr : -2 ^ 63 ≤ m ∧ m < 2 ^ 63) (hm : 2 ^ 62 ≤ m ∨ m < -2 ^ 62) :
    normalized (narrow m e) := by
  rwa [normalized_iff, narrow_mi m e hr.1 hr.2]

theorem halfUnit_range (p : Prec) : 1 ≤ halfUnit p ∧ halfUnit p ≤ 2 ^ 39 := by cases p <;> decide

theorem halfUnit_lt_unit (p : Prec) : halfUnit p < 2 ^ dropBits p := by cases p <;> decide

/-- Round answers zero or a normalized value (41_normalize_round.md R84). -/
theorem fpRound_zero_or_normalized (p : Prec) (x : Working) :
    fpRound p x = Working.zero ∨ normalized (fpRound p x) := by
  have hH := halfUnit_range p
  have hn := mi_range (fpNormalize x)
  rcases fpRound_cases p x with ⟨-, h⟩ | ⟨hpos, hcarry, h⟩ | ⟨hpos, hfit, h⟩ | ⟨hneg, h⟩ <;> rw [h]
  · exact .inl rfl
  · exact .inr (narrow_normalized _ (by unfold fdiv; omega) (by unfold fdiv; omega))
  · exact .inr (fpNormalize_normalized (by rw [narrow_mi _ _ (by omega) hfit]; omega))
  · have hne : (fpNormalize x).mi < -2 ^ 62 := by
      rcases fpNormalize_zero_or_normalized x with h0 | hnorm
      · rw [h0] at hneg; exact absurd hneg (by decide)
      · have := (normalized_iff _).mp hnorm; omega
    exact .inr (fpNormalize_normalized (by rw [narrow_mi _ _ (by omega) (by omega)]; omega))

/-! ## Clear, and round after it -/

theorem fpClear_mi (p : Prec) (x : Working) : (fpClear p x).mi = asr x.mi (dropBits p) * 2 ^ dropBits p := by
  have hx := mi_range x
  refine narrow_mi _ _ ?_ ?_ <;> cases p <;> simp only [asr_eq, dropBits_f, dropBits_x, dropBits_t] <;> omega

/-- Clearing keeps a normalized mantissa on its side of zero, and a whole unit of 2^K below the end of its range. -/
theorem fpClear_mi_range (p : Prec) {r : Working} (hr : normalized r) :
    (2 ^ 62 ≤ (fpClear p r).mi ∧ (fpClear p r).mi + 2 ^ dropBits p ≤ 2 ^ 63) ∨
    (-2 ^ 63 ≤ (fpClear p r).mi ∧ (fpClear p r).mi + 2 ^ dropBits p ≤ -2 ^ 62) := by
  have hn := (normalized_iff r).mp hr
  have hx := mi_range r
  rw [fpClear_mi, asr_eq]
  cases p <;> simp only [dropBits_f, dropBits_x, dropBits_t] <;> omega

/-- Bits added to a cleared mantissa below its retained field leave the field as it is. -/
theorem asr_fpClear_add (p : Prec) (x : Working) {d : Int} (h : 0 ≤ d) (h' : d < 2 ^ dropBits p) :
    asr ((fpClear p x).mi + d) (dropBits p) = asr x.mi (dropBits p) := by
  have hk : (2 : Int) ^ dropBits p ≠ 0 := by positivity
  rw [fpClear_mi, asr_eq (_ + d), add_comm, Int.add_mul_ediv_right _ _ hk, Int.ediv_eq_zero_of_lt h h', zero_add]

/-- Round adds to a cleared normalized value less than a unit of 2^K, and does not renormalize it. -/
theorem fpRound_fpClear_eq (p : Prec) {r : Working} (hr : normalized r) :
    ∃ d, 0 ≤ d ∧ d < 2 ^ dropBits p ∧ normalized (narrow ((fpClear p r).mi + d) r.e) ∧
      fpRound p (fpClear p r) = narrow ((fpClear p r).mi + d) r.e := by
  obtain ⟨hH, -⟩ := halfUnit_range p
  have hHK := halfUnit_lt_unit p
  have hr' := fpClear_mi_range p hr
  have hc : normalized (fpClear p r) := (normalized_iff _).mpr (by omega)
  have hadd : ∀ d, 0 ≤ d → d < 2 ^ dropBits p → normalized (narrow ((fpClear p r).mi + d) r.e) :=
    fun d _ _ => narrow_normalized r.e (by omega) (by omega)
  have hround := fpRound_cases p (fpClear p r)
  rw [fpNormalize_of_normalized hc] at hround
  rcases hround with ⟨hzero, -⟩ | ⟨_, hcarry, -⟩ | ⟨-, -, h⟩ | ⟨-, h⟩
  · exact absurd hzero hc.1
  · omega
  · have hn := hadd (halfUnit p) (by omega) hHK
    exact ⟨halfUnit p, by omega, hHK, hn, h.trans (fpNormalize_of_normalized hn)⟩
  · have hn := hadd (halfUnit p - 1) (by omega) (by omega)
    exact ⟨halfUnit p - 1, by omega, by omega, hn, h.trans (fpNormalize_of_normalized hn)⟩

/-- Round of a cleared normalized value stays normalized and keeps the exponent and the retained field. -/
theorem fpRound_fpClear (p : Prec) {r : Working} (hr : normalized r) :
    normalized (fpRound p (fpClear p r)) ∧ (fpRound p (fpClear p r)).e = r.e ∧
      asr (fpRound p (fpClear p r)).mi (dropBits p) = asr r.mi (dropBits p) := by
  obtain ⟨d, h0, hd, hn, h⟩ := fpRound_fpClear_eq p hr
  have hmi : (fpRound p (fpClear p r)).mi = (fpClear p r).mi + d := by
    have hr' := fpClear_mi_range p hr
    rw [h, narrow_mi _ _ (by omega) (by omega)]
  exact ⟨h ▸ hn, by rw [h, narrow_e], by rw [hmi, asr_fpClear_add p r h0 hd]⟩

/-! ## The pack step of a rounded and cleared value -/

/-- The pack step reads of the rounded value only whether it is zero, its exponent and its retained field. -/
theorem fpPack_congr {p : Prec} {x y : Working} (xe : Bool)
    (h0 : (fpRound p x).m = 0#64 ↔ (fpRound p y).m = 0#64) (he : (fpRound p x).e = (fpRound p y).e)
    (hm : asr (fpRound p x).mi (dropBits p) = asr (fpRound p y).mi (dropBits p)) :
    (fpPack p xe x).words = (fpPack p xe y).words ∧ (fpPack p xe x).st = (fpPack p xe y).st := by
  have hneg : (fpRound p x).mi < 0 ↔ (fpRound p y).mi < 0 := by
    rw [← asr_neg_iff _ (dropBits p), hm, asr_neg_iff]
  unfold fpPack
  simp only [h0, he, hneg, fpEncode, hm]
  split_ifs <;> exact ⟨rfl, rfl⟩

/-- Packing what PACK leaves on Y packs its operand (10_state.md R31, 41_normalize_round.md R87). -/
theorem fpPack_fpClear_fpRound (p : Prec) (xe : Bool) (x : Working) :
    (fpPack p xe (fpClear p (fpRound p x))).words = (fpPack p xe x).words ∧
    (fpPack p xe (fpClear p (fpRound p x))).st = (fpPack p xe x).st := by
  rcases fpRound_zero_or_normalized p x with hz | hn
  · have hzz : fpRound p (fpClear p (fpRound p x)) = fpRound p x := by rw [hz]; cases p <;> rfl
    exact fpPack_congr xe (by rw [hzz]) (by rw [hzz]) (by rw [hzz])
  · obtain ⟨hn', he, hm⟩ := fpRound_fpClear p hn
    exact fpPack_congr xe (iff_of_false hn'.1 hn.1) he hm

end Sys2Proof.Machine
end

section
/-! The words the pack step writes: their mantissa field is the retained field of the value packed (40_codec.md R63,
R68), so they are zero or hold a normalized field. -/

namespace Sys2Proof.Machine

/-! ## The words of a pattern -/

theorem joinWords_append_singleton (ws : List Word) (w : Word) :
    joinWords (ws ++ [w]) = joinWords ws * 2 ^ 16 + w.toNat := by simp [joinWords]

/-- The last word of a pattern is its low 16 bits, and the words before it are those of the rest (40_codec.md R63). -/
theorem splitWords_succ (n pb : Nat) : splitWords (n + 1) pb = splitWords n (pb / 2 ^ 16) ++ [BitVec.ofNat 16 pb] := by
  have hinit : ∀ i ∈ List.range n,
      BitVec.ofNat 16 (pb / 2 ^ (16 * (n + 1 - 1 - i))) = BitVec.ofNat 16 (pb / 2 ^ 16 / 2 ^ (16 * (n - 1 - i))) := by
    intro i hi
    have hlt := List.mem_range.mp hi
    rw [Nat.div_div_eq_div_mul, ← pow_add]
    congr 3
    omega
  rw [splitWords, List.range_succ, List.map_append, List.map_congr_left hinit]
  simp [splitWords]

/-- Splitting a pattern into n words and joining them gives its low 16n bits (40_codec.md R63). -/
theorem joinWords_splitWords (n pb : Nat) : joinWords (splitWords n pb) = pb % 2 ^ (16 * n) := by
  induction n generalizing pb with
  | zero => simp [splitWords, joinWords, Nat.mod_one]
  | succ n ih =>
    rw [splitWords_succ, joinWords_append_singleton, ih, BitVec.toNat_ofNat,
      show 2 ^ (16 * (n + 1)) = 2 ^ 16 * 2 ^ (16 * n) by ring, Nat.mod_mul]
    ring

/-! ## The mantissa field -/

/-- The retained field of a mantissa as a pattern: its high bits, unsigned (40_codec.md R68). -/
theorem bits_asr_mi (p : Prec) (x : Working) :
    bits (keptBits p) (asr x.mi (dropBits p)) = x.m.toNat / 2 ^ dropBits p := by
  have hlt := x.m.isLt
  rw [bits, asr_eq, Working.mi, BitVec.toInt_eq_toNat_cond]
  cases p <;> simp only [keptBits_f, keptBits_x, keptBits_t, dropBits_f, dropBits_x, dropBits_t] <;> omega

/-- The mantissa field of an encoded value is the retained field of its mantissa (40_codec.md R63, R68). -/
theorem mantField_fpEncode (p : Prec) (x : Working) (e : Int) :
    mantField (fpEncode p x.mi e) = x.m.toNat / 2 ^ dropBits p := by
  have hlt := x.m.isLt
  have hb := (expByte e).isLt
  rw [mantField, fpEncode, joinWords_splitWords, bits_asr_mi]
  cases p <;> simp only [nWords_f, nWords_x, nWords_t, dropBits_f, dropBits_x, dropBits_t] <;> omega

theorem fieldNormalized_fpEncode (p : Prec) {x : Working} (e : Int) (hx : normalized x) :
    fieldNormalized p (fpEncode p x.mi e) := by
  obtain ⟨-, htop⟩ := hx
  rw [fieldNormalized, mantField_fpEncode, Nat.testBit_div_two_pow, Nat.testBit_div_two_pow, BitVec.testBit_toNat,
    BitVec.testBit_toNat]
  cases p <;> exact htop

/-- The sentinels are normalized, with the mantissa sentinel_P as it stands (40_codec.md R70). -/
theorem sentinel_normalized (p : Prec) (negative : Bool) :
    ∃ x : Working, x.mi = sentinel p negative ∧ normalized x := by
  refine ⟨narrow (sentinel p negative) 0, narrow_mi _ _ ?_ ?_, narrow_normalized _ ⟨?_, ?_⟩ ?_⟩ <;>
    cases p <;> cases negative <;> decide

/-! ## The pack step -/

/-- The pack step writes the zero words of the class or words with a normalized mantissa field (40_codec.md R68). -/
theorem fpPack_words_zero_or_fieldNormalized (p : Prec) (xe : Bool) (x : Working) :
    (fpPack p xe x).words = zeroWords p ∨ fieldNormalized p (fpPack p xe x).words := by
  rcases fpPack_cases p xe x with ⟨-, h⟩ | ⟨-, -, h⟩ | ⟨-, -, h⟩ | ⟨hne, -, -, h⟩ <;> rw [h]
  · exact .inl rfl
  · exact .inl rfl
  · obtain ⟨y, hy, hn⟩ := sentinel_normalized p (decide ((fpRound p x).mi < 0))
    exact .inr (hy ▸ fieldNormalized_fpEncode p (eMax xe) hn)
  · rcases fpRound_zero_or_normalized p x with hz | hn
    · exact absurd (congrArg Working.m hz) hne
    · exact .inr (fieldNormalized_fpEncode p _ hn)

@[simp] theorem fpPack_r (p : Prec) (xe : Bool) (x : Working) : (fpPack p xe x).r = fpRound p x := by
  rcases fpPack_cases p xe x with ⟨-, h⟩ | ⟨-, -, h⟩ | ⟨-, -, h⟩ | ⟨-, -, -, h⟩ <;> rw [h]

/-- UNDERFLOW comes with the zero words (60_exceptions.md R140). -/
theorem fpPack_words_of_underflow {p : Prec} {xe : Bool} {x : Working} (hst : (fpPack p xe x).st = .underflow) :
    (fpPack p xe x).words = zeroWords p := by
  rcases fpPack_cases p xe x with ⟨-, h⟩ | ⟨-, -, h⟩ | ⟨-, -, h⟩ | ⟨-, -, -, h⟩
  · rw [h]
  · rw [h]
  · rw [h] at hst; cases hst
  · rw [h] at hst; cases hst

theorem fpPack_st_ne_unimpl (p : Prec) (xe : Bool) (x : Working) : (fpPack p xe x).st ≠ .unimpl := by
  rcases fpPack_cases p xe x with ⟨-, h⟩ | ⟨-, -, h⟩ | ⟨-, -, h⟩ | ⟨-, -, -, h⟩ <;> rw [h] <;> nofun

end Sys2Proof.Machine
end

section
/-! The state and its ports: what a transaction of each kind drives, when it completes, what a control word selects, and
the statements of 10_state.md settled from these. -/

namespace Sys2Proof.Machine

/-! ## What a control word selects -/

theorem decode_encode (i : Instr) : decode (encode i) = .ok i := by
  cases i <;> next p xe => cases p <;> cases xe <;> rfl

theorem decodePrec_eq_none {v : BitVec 2} (h : v.toNat = 3) : decodePrec v = none := by
  simp [decodePrec, h]

theorem decodeFn_eq_none {fn : BitVec 4} (h : 0xB ≤ fn.toNat) (p : Prec) (xe : Bool) : decodeFn fn p xe = none := by
  unfold decodeFn
  split
  case h_12 => rfl
  all_goals omega

/-- A word decodes only if it passes the three tests of 30_encoding.md R56. -/
theorem decode_ok {w : Word} {i : Instr} (h : decode w = .ok i) :
    w.extractLsb' 7 9 = 0 ∧
      ∃ p, decodePrec (w.extractLsb' 4 2) = some p ∧ decodeFn (w.extractLsb' 0 4) p (w.getLsbD 6) = some i := by
  unfold decode at h
  split at h
  · cases h
  next hrsv =>
  split at h
  · cases h
  next p hp =>
  split at h
  · cases h
  next hfn => cases h; exact ⟨not_not.mp hrsv, p, hp, hfn⟩

/-- The fields of a word as quotients of its number (30_encoding.md R51). -/
theorem toNat_field (w : Word) (k n : Nat) : (w.extractLsb' k n).toNat = w.toNat / 2 ^ k % 2 ^ n := by
  rw [BitVec.extractLsb'_toNat, Nat.shiftRight_eq_div_pow]

/-- A reserved word decodes to no instruction (30_encoding.md R56). -/
theorem decode_reservedWord {w : Word} (hw : reservedWord w) : ∃ r, decode w = .error r := by
  cases hd : decode w with
  | error r => exact ⟨r, rfl⟩
  | ok i =>
    exfalso
    obtain ⟨hrsv, p, hp, hfn⟩ := decode_ok hd
    rcases hw with h | h | h
    · have h0 : w.toNat / 2 ^ 7 % 2 ^ 9 = 0 := by rw [← toNat_field, hrsv]; rfl
      have hlt := w.isLt
      omega
    · rw [decodePrec_eq_none (by rw [toNat_field]; exact h)] at hp
      cases hp
    · rw [decodeFn_eq_none (by rw [toNat_field]; omega)] at hfn
      cases hfn

/-! ## One step -/

theorem step_of_idle {s : State} (h : s.cw = none) : step s = .next s := by simp [step, fetchWord, h]

theorem step_of_decode {s : State} {w : Word} {i : Instr} (hw : s.cw = some w) (hd : decode w = .ok i) :
    step s = exec i s := by simp [step, fetchWord, hw, hd]

theorem step_of_reservedWord {s : State} {w : Word} (hw : s.cw = some w) (hr : reservedWord w) :
    step s = .next (unimplemented s) := by
  obtain ⟨r, hd⟩ := decode_reservedWord hr
  simp [step, fetchWord, hw, hd]

/-! ## When an instruction completes -/

theorem exec_completes_iff_ready (i : Instr) (s : State) : (∃ t, exec i s = .next t) ↔ Ready i s := by
  have hd := exec_decidedBy_firstStop i s
  rw [ready_iff_firstStop_eq_none]
  cases hf : firstStop i s with
  | none => rw [hf] at hd; exact iff_of_true hd rfl
  | some f =>
    rw [exec_eq_fault hf]
    exact iff_of_false (fun ⟨_, ht⟩ => nomatch ht) nofun

theorem readsPI_of_finishing {i : Instr} (hi : finishing i = true) : readsPI i = false := by
  cases i with
  | unpk p xe => exact nomatch hi
  | _ => rfl

theorem firstStop_of_unwritten_o {i : Instr} {s : State} (hi : finishing i = true) (ho : s.o = .unwritten)
    (ha : readsA i = true → s.a ≠ none) (hb : readsB i = true → s.b ≠ none) :
    firstStop i s = some .overflowFlagUnwritten := by
  have hA : (if readsA i then stopA s else none) = none := by simpa [stopA] using ha
  have hB : (if readsB i then stopB s else none) = none := by simpa [stopB] using hb
  simp [firstStop, hA, hB, readsPI_of_finishing hi, hi, stopO, ho]

/-! ## What each kind of instruction drives -/

/-- Everything an instruction can do when it answers a next state, by its kind (10_state.md R31): a finishing function
drives Y and its pack step and accumulates O; CLRO clears O and drives ST alone; the others drive Y with ST = VALUE. -/
theorem exec_next_by_kind {i : Instr} {s t : State} (h : exec i s = .next t) :
    (finishing i = true ∧ ∃ v y, s.o = .written v ∧
      t = drive s (.written (v || raisesO (fpPack i.prec i.xe y).st)) (some y) (some (fpPack i.prec i.xe y).words)
        (fpPack i.prec i.xe y).st) ∨
    (finishing i = false ∧ (∀ p xe, i ≠ .clro p xe) ∧ ∃ y, t = drive s s.o (some y) none .value) ∨
    (∃ p xe, i = .clro p xe ∧ t = drive s (.written false) none none .value) := by
  cases i with
  | unpk p xe =>
    simp only [exec, execUnpk] at h
    obtain ⟨-, h⟩ := withPI_next h
    exact .inr (.inl ⟨rfl, nofun, _, completeValue_next h⟩)
  | norm p xe | rnd p xe =>
    simp only [exec, execNorm, execRnd] at h
    obtain ⟨_, -, h⟩ := withA_next h
    exact .inr (.inl ⟨rfl, nofun, _, completeValue_next h⟩)
  | clro p xe => cases h; exact .inr (.inr ⟨p, xe, rfl, rfl⟩)
  | pack p xe =>
    simp only [exec, execPack, fpPack_r] at h
    obtain ⟨a, -, h⟩ := withA_next h
    obtain ⟨v, hv, h⟩ := completePacked_next h
    obtain ⟨hw, hst⟩ := fpPack_fpClear_fpRound p xe a
    exact .inl ⟨rfl, v, fpClear p (fpRound p a), hv, by simpa only [Instr.prec, Instr.xe, hw, hst] using h⟩
  | cmpl p xe | trnc p xe =>
    simp only [exec, execCmpl, execTrnc] at h
    obtain ⟨_, -, h⟩ := withA_next h
    obtain ⟨v, hv, h⟩ := finish_next h
    exact .inl ⟨rfl, v, _, hv, h⟩
  | add p xe | sub p xe | mpy p xe | div p xe =>
    simp only [exec, execAdd, execSub, execMpy, execDiv] at h
    obtain ⟨_, -, h⟩ := withA_next h
    obtain ⟨_, -, h⟩ := withB_next h
    obtain ⟨v, hv, h⟩ := finish_next h
    exact .inl ⟨rfl, v, _, hv, h⟩

theorem raisesO_eq_decide (st : Status) : raisesO st = decide (st = .overflow ∨ st = .underflow) := by
  cases st <;> rfl

/-! ## The invariant of the output ports -/

theorem portsConsistent_unimplemented (s : State) : PortsConsistent (unimplemented s) := by
  refine ⟨nofun, ?_, nofun, fun _ => ⟨rfl, rfl⟩, nofun⟩
  rintro _ ⟨⟩ hst
  cases hst

/-- A transaction with ST = VALUE and PO undriven is consistent whatever it does to Y and O. -/
theorem portsConsistent_drive_value (s : State) (o : OFlag) (y : Option Working) :
    PortsConsistent (drive s o y none .value) := by
  refine ⟨nofun, ?_, nofun, nofun, nofun⟩
  rintro _ ⟨⟩ hst
  cases hst

/-- A transaction that ends in a pack step and accumulates O is consistent. -/
theorem portsConsistent_drive_packed (s : State) (p : Prec) (xe v : Bool) (x y : Working) :
    PortsConsistent (drive s (.written (v || raisesO (fpPack p xe x).st)) (some y) (some (fpPack p xe x).words)
      (fpPack p xe x).st) := by
  refine ⟨?_, ?_, ?_, ?_, nofun⟩
  · rintro _ ⟨⟩
    exact ⟨nofun, nofun, p, fpPack_words_length p xe x, fpPack_words_zero_or_fieldNormalized p xe x⟩
  · rintro _ ⟨⟩ hst
    exact ⟨by simp [hst], nofun⟩
  · intro hst
    exact ⟨p, congrArg some (fpPack_words_of_underflow (Option.some.inj hst))⟩
  · intro hst
    exact absurd (Option.some.inj hst) (fpPack_st_ne_unimpl p xe x)

theorem exec_portsConsistent {i : Instr} {s t : State} (h : exec i s = .next t) : PortsConsistent t := by
  rcases exec_next h with ⟨y, rfl⟩ | ⟨v, y, x, -, rfl⟩ | rfl
  · exact portsConsistent_drive_value _ _ _
  · exact portsConsistent_drive_packed _ _ _ _ _ _
  · exact portsConsistent_drive_value _ _ _

/-- Settles O24: an idle step keeps the state, and what any other step drives is consistent by itself. -/
theorem stepKeepsPortsConsistent : Obligations.StepKeepsPortsConsistent := by
  intro s t hs h
  rcases step_next h with ⟨-, rfl⟩ | ⟨_, _, -, -, rfl⟩ | ⟨_, _, -, -, he⟩
  · exact hs
  · exact portsConsistent_unimplemented s
  · exact exec_portsConsistent he

/-! ## O -/

/-- A step from an unwritten O writes it only by a CLRO (10_state.md R20). -/
theorem step_o_unwritten {s t : State} (ho : s.o = .unwritten) (h : step s = .next t)
    (hclro : ∀ (w : Word) (p : Prec) (xe : Bool), s.cw = some w → decode w ≠ .ok (.clro p xe)) :
    t.o = .unwritten := by
  rcases step_next h with ⟨-, rfl⟩ | ⟨_, _, -, -, rfl⟩ | ⟨w, i, hw, hd, he⟩
  · exact ho
  · exact ho
  · rcases exec_next_by_kind he with ⟨-, v, y, hv, -⟩ | ⟨-, -, y, rfl⟩ | ⟨p, xe, rfl, -⟩
    · rw [ho] at hv; cases hv
    · exact ho
    · exact absurd hd (hclro w p xe hw)

theorem readOV_of_unwritten {s : State} (ho : s.o = .unwritten) : readOV s = .error .overflowFlagUnwritten := by
  simp [readOV, ho]

theorem exec_clro_writes_o (p : Prec) (xe : Bool) (s : State) :
    ∃ t, exec (.clro p xe) s = .next t ∧ t.o = .written false := ⟨_, rfl, rfl⟩

/-- Settles O8: the fault of a finishing function is its first stop, its operands being driven. -/
theorem oIsUnwrittenUntilClro : Obligations.OIsUnwrittenUntilClro :=
  ⟨rfl, fun _ _ ho h hclro => step_o_unwritten ho h hclro, fun _ ho => readOV_of_unwritten ho,
    fun _ _ ho hi ha hb => exec_eq_fault (firstStop_of_unwritten_o hi ho ha hb),
    fun s p xe => exec_clro_writes_o p xe s⟩

/-- Settles O17, from the first stop of the instruction. -/
theorem completesExactlyWhenReady : Obligations.CompletesExactlyWhenReady := exec_completes_iff_ready

/-- Settles O19, by the kind of the instruction. -/
theorem outputsDrivenByEachFunction : Obligations.OutputsDrivenByEachFunction := by
  intro i s t h
  rcases exec_next_by_kind h with ⟨hf, v, y, -, rfl⟩ | ⟨hf, hne, y, rfl⟩ | ⟨p, xe, rfl, rfl⟩
  · have hne : ¬ ∃ p xe, i = .clro p xe := by rintro ⟨p, xe, rfl⟩; cases hf
    exact ⟨iff_of_false nofun hne, iff_of_false nofun (by simp [hf]), nofun, by simp [hf], rfl, rfl, rfl, rfl⟩
  · exact ⟨iff_of_false nofun fun ⟨p, xe, hi⟩ => hne p xe hi, iff_of_true rfl hf, nofun, fun _ => rfl,
      rfl, rfl, rfl, rfl⟩
  · exact ⟨iff_of_true rfl ⟨p, xe, rfl⟩, iff_of_true rfl rfl, nofun, fun _ => rfl, rfl, rfl, rfl, rfl⟩

/-- Settles O20, by the kind of the instruction; a reserved word is UNIMPL. -/
theorem oAccumulatesOverflowAndUnderflow : Obligations.OAccumulatesOverflowAndUnderflow := by
  refine ⟨fun i s t h hi => ?_, exec_clro_writes_o, fun i s t h hi hne => ?_,
    fun s w hw hr => ⟨_, step_of_reservedWord hw hr, rfl⟩⟩
  · rcases exec_next_by_kind h with ⟨-, v, y, hv, rfl⟩ | ⟨hf, -, -⟩ | ⟨p, xe, rfl, -⟩
    · exact ⟨v, _, hv, rfl, by rw [drive_o, raisesO_eq_decide]⟩
    · rw [hi] at hf; cases hf
    · cases hi
  · rcases exec_next_by_kind h with ⟨hf, -⟩ | ⟨-, -, y, rfl⟩ | ⟨p, xe, rfl, -⟩
    · rw [hi] at hf; cases hf
    · rfl
    · exact absurd rfl (hne p xe)

/-- Settles O34: PO and ST of a finishing function are the pack step of its Y, PACK's rounded and cleared Y included. -/
theorem packedOutputIsThePackOfY : Obligations.PackedOutputIsThePackOfY := by
  intro i s t y h hi hy
  rcases exec_next_by_kind h with ⟨-, v, y', -, rfl⟩ | ⟨hf, -, -⟩ | ⟨p, xe, rfl, -⟩
  · cases hy; exact ⟨rfl, rfl⟩
  · rw [hi] at hf; cases hf
  · cases hi

/-! ## The presentation of a transaction -/

/-- Settles O4: the decoded word selects the arm of exec, with nothing around it. -/
theorem stepPerformsTheDecodedInstruction : Obligations.StepPerformsTheDecodedInstruction :=
  fun _ _ _ hw hd => step_of_decode hw hd

/-- Where withFetchWord places an instruction's word every port is driven and O is written (log entry 6). -/
theorem ready_withFetchWord (i : Instr) (s : State) (n w : Nat) : Ready i (s.withFetchWord n w) := by
  refine ⟨fun _ => nofun, fun _ => nofun, fun _ => ?_, fun _ => ?_⟩
  · have hn : nWords i.prec ≤ 4 := by cases i.prec <;> decide
    simp only [State.withFetchWord, presentForRun_pi, List.length_append, List.length_replicate]
    omega
  · simp only [State.withFetchWord, presentForRun_o]
    cases s.o <;> nofun

theorem step_withFetchWord (i : Instr) (s : State) :
    step (s.withFetchWord 16 (encode i).toNat) = exec i (s.withFetchWord 16 (encode i).toNat) := by
  have hw : BitVec.ofNat 16 ((encode i).toNat % 2 ^ 16) = encode i := by
    rw [Nat.mod_eq_of_lt (encode i).isLt, BitVec.ofNat_toNat, BitVec.setWidth_eq]
  exact step_of_decode (congrArg some hw) (decode_encode i)

/-- Settles O5: a placed word decodes to its instruction, which is ready. -/
theorem idleStepAndPlacedWord : Obligations.IdleStepAndPlacedWord := by
  refine ⟨fun s => step_of_idle, fun s i => step_withFetchWord i s, fun s i => ?_⟩
  rw [step_withFetchWord]
  exact (exec_completes_iff_ready _ _).mpr (ready_withFetchWord i s _ _)

theorem presentA_of_ok {m : Int} (h : mantissaOk m = true) (e : Int) (s : State) :
    presentA m e s = .next { s with a := some (narrow m e) } := if_pos h

theorem presentB_of_ok {m : Int} (h : mantissaOk m = true) (e : Int) (s : State) :
    presentB m e s = .next { s with b := some (narrow m e) } := if_pos h

theorem presentA_of_not_ok {m : Int} (h : ¬ mantissaOk m = true) (e : Int) (s : State) :
    presentA m e s = .refused .mantissaOutOfRange := if_neg h

theorem presentB_of_not_ok {m : Int} (h : ¬ mantissaOk m = true) (e : Int) (s : State) :
    presentB m e s = .refused .mantissaOutOfRange := if_neg h

/-- Settles O23: narrowing a mantissa in range loses nothing. -/
theorem portsTakeExactlyTheMantissasInRange : Obligations.PortsTakeExactlyTheMantissasInRange := by
  intro m e s
  rw [← mantissaOk_iff]
  refine ⟨fun h => ?_, fun h => ⟨presentA_of_not_ok h e s, presentB_of_not_ok h e s⟩⟩
  obtain ⟨hlo, hhi⟩ := (mantissaOk_iff m).mp h
  exact ⟨narrow m e, narrow_mi m e hlo hhi, rfl, presentA_of_ok h e s, presentB_of_ok h e s⟩

end Sys2Proof.Machine
end

section
/-! The host's memory as the FPAU's operands see it (20_memory.md R45, R47, R50): a stored run of words is fetched back,
nothing else changes, and a chained opcode reads each set from what the sets before it stored (R49). -/

namespace Sys2Proof.Machine

/-! ## Runs of words -/

theorem wordAddr_of_lt {prm : HostParams} {base i : Nat} (h : base + i < 2 ^ prm.vaBits) :
    wordAddr prm base i = base + i := Nat.mod_eq_of_lt h

theorem readWord_writeWords_other {prm : HostParams} {base a : Nat} (ws : List Word) (mem : HostMemory) (i : Nat)
    (ha : ∀ j, j < ws.length → a ≠ wordAddr prm base (i + j)) :
    readWord (writeWords prm mem base i ws) a = readWord mem a := by
  induction ws generalizing mem i with
  | nil => rfl
  | cons w ws ih =>
    have hhead : a ≠ wordAddr prm base i := ha 0 (by simp)
    have htail : ∀ j, j < ws.length → a ≠ wordAddr prm base (i + 1 + j) := fun j hj => by
      rw [Nat.add_assoc, Nat.add_comm 1 j]
      exact ha (j + 1) (by simpa using hj)
    calc readWord (writeWords prm (writeWord mem (wordAddr prm base i) w) base (i + 1) ws) a
        = readWord (writeWord mem (wordAddr prm base i) w) a := ih _ _ htail
      _ = readWord mem a := readWord_writeWord_other _ _ _ _ hhead

/-- A store leaves every word but its own as it was (20_memory.md R41). -/
theorem readWord_writeWords_frame {prm : HostParams} {base a : Nat} (mem : HostMemory) (ws : List Word)
    (ha : ∀ i, i < ws.length → a ≠ wordAddr prm base i) :
    readWord (writeWords prm mem base 0 ws) a = readWord mem a :=
  readWord_writeWords_other ws mem 0 fun i hi => by rw [Nat.zero_add]; exact ha i hi

/-- Without the wrap of log entry 12 no later word of the run overwrites an earlier one. -/
theorem readWord_writeWords_same {prm : HostParams} {base : Nat} (ws : List Word) (mem : HostMemory) (i : Nat)
    (hfit : base + i + ws.length ≤ 2 ^ prm.vaBits) {j : Nat} {w : Word} (hw : ws[j]? = some w) :
    readWord (writeWords prm mem base i ws) (base + i + j) = some w := by
  induction ws generalizing mem i j with
  | nil => simp at hw
  | cons v ws ih =>
    rw [List.length_cons] at hfit
    have hi : wordAddr prm base i = base + i := wordAddr_of_lt (by omega)
    rw [writeWords, hi]
    cases j with
    | zero =>
      have hlater : ∀ k, k < ws.length → base + i ≠ wordAddr prm base (i + 1 + k) := fun k hk => by
        rw [wordAddr_of_lt (by omega)]
        omega
      rw [Nat.add_zero (base + i), readWord_writeWords_other ws _ _ hlater, readWord_writeWord_same]
      simpa using hw
    | succ j =>
      have := ih (writeWord mem (base + i) v) (i + 1) (by omega) (by simpa using hw)
      rwa [show base + i + (j + 1) = base + (i + 1) + j by omega]

/-- A fetch answers the words that stand in memory from its base. -/
theorem readWords_eq_ok {prm : HostParams} {mem : HostMemory} {base : Nat} (ws : List Word) (i : Nat)
    (h : ∀ j w, ws[j]? = some w → readWord mem (wordAddr prm base (i + j)) = some w) :
    readWords prm mem base i ws.length = .ok ws := by
  induction ws generalizing i with
  | nil => rfl
  | cons v ws ih =>
    have hhead : readWordAt prm mem base i = .ok v := (readWordAt_eq_ok ..).mpr (h 0 v rfl)
    have htail : readWords prm mem base (i + 1) ws.length = .ok ws := ih (i + 1) fun j w hw => by
      rw [Nat.add_assoc, Nat.add_comm 1 j]
      exact h (j + 1) w (by simpa using hw)
    rw [List.length_cons, readWords, hhead]
    simp only [htail]

theorem readWords_writeWords {prm : HostParams} {base : Nat} (mem : HostMemory) (ws : List Word)
    (hfit : base + ws.length ≤ 2 ^ prm.vaBits) :
    readWords prm (writeWords prm mem base 0 ws) base 0 ws.length = .ok ws := by
  refine readWords_eq_ok ws 0 fun j w hw => ?_
  obtain ⟨hj, -⟩ := List.getElem?_eq_some_iff.mp hw
  rw [Nat.zero_add, wordAddr_of_lt (by omega)]
  exact readWord_writeWords_same ws mem 0 hfit hw

/-- Settles O56, by the reading rules of a written run. -/
theorem hostStoreThenFetchAndFrame : Obligations.HostStoreThenFetchAndFrame :=
  fun _ mem _ ws => ⟨readWords_writeWords mem ws, fun _ => readWord_writeWords_frame mem ws⟩

/-! ## One set of a chained opcode -/

/-- The host's transaction of an instruction performs that instruction. -/
theorem issue_transaction_ok {i : Instr} {a b : Option Working} {pi : List Word} {h h' : HostState}
    (hi : issue (transaction i a b pi) h = .ok h') :
    exec i (present (transaction i a b pi) h.fpau) = .next h'.fpau := by
  obtain ⟨s, hs, rfl⟩ := issue_ok hi
  rwa [step_of_decode rfl (decode_encode i)] at hs

theorem readPO_ok {s : State} {po : List Word} (h : readPO s = .ok po) : s.po = some po := by
  unfold readPO at h
  split at h
  · cases h; assumption
  · cases h

/-- What the host reads from PO after a transaction has the words of the instruction's class (10_state.md R26). -/
theorem hostPO_length_of_issue {i : Instr} {a b : Option Working} {pi po : List Word} {h h' : HostState}
    (hi : issue (transaction i a b pi) h = .ok h') (hp : hostPO h' = .ok po) : po.length = nWords i.prec :=
  exec_po_length (issue_transaction_ok hi) (readPO_ok (hostPO_ok hp))

@[simp] theorem arithInstr_prec (op : ArithOp) (p : Prec) (xe : Bool) : (arithInstr op p xe).prec = p := by
  cases op <;> rfl

theorem executeArith_po_length {op : ArithOp} {p : Prec} {a : Working} {b : Option Working} {h h' : HostState}
    {po : List Word} (he : executeArith op p a b h = .ok (po, h')) : po.length = nWords p := by
  obtain ⟨h1, hi, he⟩ := except_bind_ok he
  obtain ⟨po', hp, he⟩ := except_bind_ok he
  cases he
  simpa using hostPO_length_of_issue hi hp

/-- A converted result has the words of the target class (log entry 13). -/
theorem convertResult_po_length {p : Prec} {target : Option Prec} {po po' : List Word} {h h' : HostState}
    (hc : convertResult p target po h = .ok (po', h')) (hp : po.length = nWords p) :
    po'.length = nWords (target.getD p) := by
  cases target with
  | none => cases hc; exact hp
  | some q =>
    obtain ⟨h1, hi, hc⟩ := except_bind_ok hc
    obtain ⟨po1, hq, hc⟩ := except_bind_ok hc
    cases hc
    exact hostPO_length_of_issue hi hq

theorem storeResult_ok {prm : HostParams} {c : ChainSet} {po : List Word} {h h' : HostState}
    (hs : storeResult prm c po h = .ok h') :
    (c.resultCount = 0 ∧ h' = h) ∨
    (c.resultCount ≠ 0 ∧ ∃ dst, effectiveAddr prm h.mem c.resultAddr = .ok dst ∧
      h' = { h with mem := writeWords prm h.mem dst 0 po }) := by
  unfold storeResult at hs
  split at hs
  · cases hs; exact .inl ⟨‹_›, rfl⟩
  · exact .inr ⟨‹_›, storeWords_ok hs⟩

/-- A set that runs computes its result with memory as it found it, and stores last (70_reset_and_hazards.md R158). -/
theorem runSet_ok {prm : HostParams} {op : ArithOp} {p : Prec} {c : ChainSet} {h h' : HostState}
    (hr : runSet prm op p c h = .ok h') :
    ∃ po h1, h1.mem = h.mem ∧ readPO h1.fpau = .ok po ∧ po.length = nWords (c.convert.getD p) ∧
      storeResult prm c po h1 = .ok h' := by
  obtain ⟨⟨a, h1⟩, hfetch, hr⟩ := except_bind_ok hr
  obtain ⟨⟨b, h2⟩, hsecond, hr⟩ := except_bind_ok hr
  obtain ⟨⟨po, h3⟩, hexec, hr⟩ := except_bind_ok hr
  obtain ⟨⟨po', h4⟩, hconv, hstore⟩ := except_bind_ok hr
  obtain ⟨hmem3, hpo3⟩ := executeArith_mem_po hexec
  obtain ⟨hmem4, hpo4⟩ := convertResult_mem_po hconv hpo3
  have hmem : h4.mem = h.mem :=
    calc h4.mem = h3.mem := hmem4
      _ = h2.mem := hmem3
      _ = h1.mem := fetchSecond_mem hsecond
      _ = h.mem := fetchOperand_mem hfetch
  exact ⟨po', h4, hmem, hpo4, convertResult_po_length hconv (executeArith_po_length hexec), hstore⟩

theorem stepSet_of_runSet {prm : HostParams} {c : ChainSet} {op : ArithOp} {p : Prec} {h h' : HostState}
    (hop : c.op = some (op, p)) (hm : setMismatch p c = false) (hr : runSet prm op p c h = .ok h') :
    stepSet prm c h = .ok (none, h') := by
  simp [stepSet, hop, hm, hr]

/-- The engine reads the next set from the memory the set before it left (20_memory.md R49, R50). -/
theorem runChainAt_succ_of_stepSet {prm : HostParams} {fmt : ChainFormat} {base : Nat} {c : ChainSet} {h h' : HostState}
    (sets : Nat) (hread : readSet prm fmt h.mem base = .ok c) (hs : stepSet prm c h = .ok (none, h')) :
    runChainAt prm fmt (sets + 1) base h = runChainAt prm fmt sets (base + fmt.setLength) h' := by
  simp [runChainAt, hread, hs]

/-- Settles O60: memory is the set's own until its store, which is the run of PO's words, if there is one. -/
theorem chainReadsEachSetAfterTheEarlierStores : Obligations.ChainReadsEachSetAfterTheEarlierStores := by
  intro prm fmt sets base c op p h h' hread hop hm hr
  refine ⟨runChainAt_succ_of_stepSet sets hread (stepSet_of_runSet hop hm hr), ?_⟩
  obtain ⟨po, h1, hmem, hpo, hlen, hstore⟩ := runSet_ok hr
  rcases storeResult_ok hstore with ⟨hzero, rfl⟩ | ⟨hne, dst, hdst, rfl⟩
  · exact ⟨fun _ => hmem, fun hne => absurd hzero hne⟩
  · rw [hmem] at hdst ⊢
    refine ⟨fun hzero => absurd hzero hne, fun _ => ⟨dst, po, hdst, hpo, hlen, fun hfit i w hw => ?_, fun a ha => ?_⟩⟩
    · exact readWord_writeWords_same po h.mem 0 hfit hw
    · exact readWord_writeWords_frame h.mem po ha

end Sys2Proof.Machine
end

section
/-! Encoding (30_encoding.md): the fields of a control word and the number they spell, which of R56's tests a word fails
first, and the functions that PREC and XE do not change. -/

namespace Sys2Proof.Machine

/-! ## The fields of a control word -/

theorem encodePrec_of_decodePrec {v : BitVec 2} {p : Prec} (h : decodePrec v = some p) : encodePrec p = v.toNat := by
  unfold decodePrec at h
  split at h
  case h_4 => cases h
  all_goals next hv => cases h; exact hv.symm

/-- An FN field that selects an instruction is that instruction's, and its class and XE are the ones given. -/
theorem encodeFn_of_decodeFn {fn : BitVec 4} {p : Prec} {xe : Bool} {i : Instr} (h : decodeFn fn p xe = some i) :
    i.prec = p ∧ i.xe = xe ∧ encodeFn i = fn.toNat := by
  unfold decodeFn at h
  split at h
  case h_12 => cases h
  all_goals next hfn => cases h; exact ⟨rfl, rfl, hfn.symm⟩

theorem decodePrec_eq_none_iff {v : BitVec 2} : decodePrec v = none ↔ v.toNat = 3 := by
  refine ⟨fun h => ?_, decodePrec_eq_none⟩
  by_contra hne
  have hlt : v.toNat < 3 := by have := v.isLt; omega
  unfold decodePrec at h
  interval_cases v.toNat <;> cases h

theorem decodeFn_eq_none_iff {fn : BitVec 4} {p : Prec} {xe : Bool} : decodeFn fn p xe = none ↔ 0xB ≤ fn.toNat := by
  refine ⟨fun h => ?_, fun h => decodeFn_eq_none h p xe⟩
  by_contra! hlt
  unfold decodeFn at h
  interval_cases fn.toNat <;> cases h

/-- The RSV field is zero exactly when nothing stands above bit 6 (30_encoding.md R55). -/
theorem rsv_eq_zero_iff (w : Word) : w.extractLsb' 7 9 = 0 ↔ w.toNat / 128 = 0 := by
  have hfield := toNat_field w 7 9
  have hlt := w.isLt
  have hzero : (0 : BitVec 9).toNat = 0 := rfl
  rw [← BitVec.toNat_inj, hfield, hzero]
  omega

/-- The XE bit as its place in the word's number (30_encoding.md R51). -/
theorem xe_place (w : Word) : (if w.getLsbD 6 then 0x40 else 0) = w.toNat / 64 % 2 * 0x40 := by
  have hbit : (w.getLsbD 6).toNat = w.toNat / 64 % 2 := Nat.toNat_testBit w.toNat 6
  rw [← hbit]
  cases w.getLsbD 6 <;> rfl

/-- With RSV = 0 the word's number is XE·0x40 + PREC·0x10 + FN (30_encoding.md R57). -/
theorem toNat_of_rsv_eq_zero {w : Word} (h : w.extractLsb' 7 9 = 0) :
    (if w.getLsbD 6 then 0x40 else 0) + (w.extractLsb' 4 2).toNat * 0x10 + (w.extractLsb' 0 4).toNat = w.toNat := by
  have hrsv := (rsv_eq_zero_iff w).mp h
  rw [xe_place, toNat_field, toNat_field]
  omega

/-! ## Decode and encode -/

theorem encode_of_decode {w : Word} {i : Instr} (h : decode w = .ok i) : encode i = w := by
  obtain ⟨hrsv, p, hp, hfn⟩ := decode_ok h
  obtain ⟨hprec, hxe, hfn⟩ := encodeFn_of_decodeFn hfn
  rw [encode, hprec, hxe, hfn, encodePrec_of_decodePrec hp, toNat_of_rsv_eq_zero hrsv, BitVec.ofNat_toNat,
    BitVec.setWidth_eq]

/-- Settles O1: the fields of a word that decodes spell its number again. -/
theorem decodeExactlyTheEncodedWords : Obligations.DecodeExactlyTheEncodedWords := by
  intro w i
  refine ⟨encode_of_decode, ?_⟩
  rintro rfl
  exact decode_encode i

/-- Everything the decoder answers: the rejection of the first test that fails, or an instruction where none does
(30_encoding.md R56). -/
theorem decode_cases (w : Word) :
    (w.toNat / 128 ≠ 0 ∧ decode w = .error .reservedBits) ∨
    (w.toNat / 128 = 0 ∧ w.toNat / 16 % 4 = 3 ∧ decode w = .error .reservedPrec) ∨
    (w.toNat / 128 = 0 ∧ w.toNat / 16 % 4 ≠ 3 ∧ 0xB ≤ w.toNat % 16 ∧ decode w = .error .reservedFn) ∨
    (w.toNat / 128 = 0 ∧ w.toNat / 16 % 4 ≠ 3 ∧ ¬ 0xB ≤ w.toNat % 16 ∧ ∃ i, decode w = .ok i) := by
  have hprec : (w.extractLsb' 4 2).toNat = w.toNat / 16 % 4 := toNat_field w 4 2
  have hfn : (w.extractLsb' 0 4).toNat = w.toNat % 16 := by simp [toNat_field w 0 4]
  rw [ne_eq, ne_eq, ← rsv_eq_zero_iff, ← hprec, ← hfn, ← decodePrec_eq_none_iff]
  by_cases hrsv : w.extractLsb' 7 9 = 0
  case neg => exact .inl ⟨hrsv, by rw [decode, if_pos hrsv]⟩
  cases hp : decodePrec (w.extractLsb' 4 2) with
  | none => exact .inr (.inl ⟨hrsv, rfl, by rw [decode, if_neg (not_not.mpr hrsv), hp]⟩)
  | some p =>
    rw [← decodeFn_eq_none_iff (p := p) (xe := w.getLsbD 6)]
    cases hi : decodeFn (w.extractLsb' 0 4) p (w.getLsbD 6) with
    | none =>
      refine .inr (.inr (.inl ⟨hrsv, nofun, rfl, ?_⟩))
      rw [decode, if_neg (not_not.mpr hrsv), hp]
      simp only [hi]
    | some i =>
      refine .inr (.inr (.inr ⟨hrsv, nofun, nofun, i, ?_⟩))
      rw [decode, if_neg (not_not.mpr hrsv), hp]
      simp only [hi]

/-- Settles O2: the decoder's four answers are told apart by their conditions. -/
theorem decodeRejectsByTheFirstFailedTest : Obligations.DecodeRejectsByTheFirstFailedTest := by
  intro w
  rcases decode_cases w with ⟨hrsv, hd⟩ | ⟨hrsv, hprec, hd⟩ | ⟨hrsv, hprec, hfn, hd⟩ | ⟨hrsv, hprec, hfn, i, hd⟩
  · simp [hd, hrsv]
  · simp [hd, hrsv, hprec]
  · simp [hd, hrsv, hprec, hfn]
  · simp [hd, hrsv, hprec, hfn]

/-! ## What PREC and XE do not change -/

/-- The Y of a finishing function of A alone, whatever class and XE its pack step takes (10_state.md R31). -/
theorem withA_finish_y {p : Prec} {xe : Bool} {s t : State} {f : Working → Working}
    (h : withA s (fun a => finish p xe s (f a)) = .next t) : t.y = s.a.map f := by
  obtain ⟨a, ha, h⟩ := withA_next h
  obtain ⟨v, -, rfl⟩ := finish_next h
  rw [drive_y, ha, Option.map_some]

/-- The Y of a finishing function of A and B, whatever class and XE its pack step takes (10_state.md R31). -/
theorem withA_withB_finish_y {p : Prec} {xe : Bool} {s t : State} {f : Working → Working → Working}
    (h : withA s (fun a => withB s fun b => finish p xe s (f a b)) = .next t) :
    t.y = s.a.bind fun a => s.b.map (f a) := by
  obtain ⟨a, ha, h⟩ := withA_next h
  obtain ⟨b, hb, h⟩ := withB_next h
  obtain ⟨v, -, rfl⟩ := finish_next h
  rw [drive_y, ha, hb, Option.bind_some, Option.map_some]

section
variable {p : Prec} {xe : Bool} {s t : State}

theorem exec_cmpl_y (h : exec (.cmpl p xe) s = .next t) : t.y = s.a.map fpCmpl := withA_finish_y h

theorem exec_mpy_y (h : exec (.mpy p xe) s = .next t) : t.y = s.a.bind fun a => s.b.map (fpMul a) :=
  withA_withB_finish_y h

theorem exec_trnc_y (h : exec (.trnc p xe) s = .next t) : t.y = s.a.map fpTrunc := withA_finish_y h

end

/-- Settles O22: the first four arms of `exec` drop the ignored field, and the Y of the last three is a function of the
operand ports alone. -/
theorem classAndXeIgnoredWhereStated : Obligations.ClassAndXeIgnoredWhereStated := by
  intro s p q xe xe'
  refine ⟨rfl, rfl, rfl, rfl, fun t u ht hu => ?cmpl, fun t u ht hu => ?mpy, fun t u ht hu => ?trnc⟩
  case cmpl => rw [exec_cmpl_y ht, exec_cmpl_y hu]
  case mpy => rw [exec_mpy_y ht, exec_mpy_y hu]
  case trnc => rw [exec_trnc_y ht, exec_trnc_y hu]

end Sys2Proof.Machine
end

section
/-! The packed format (40_codec.md): the exponent byte and its inverse, the fields of packed words, what unpack reads
from them, and that unpacking and encoding are inverse. -/

namespace Sys2Proof.Machine

/-! ## The exponent byte -/

theorem rotl8_rotr8 (v : ExpByte) : rotl8 (rotr8 v) = v := by
  ext i hi
  interval_cases i <;> simp [rotl8, rotr8]

theorem rotr8_rotl8 (v : ExpByte) : rotr8 (rotl8 v) = v := by
  ext i hi
  interval_cases i <;> simp [rotl8, rotr8]

@[simp] theorem enc8_dec8 (b : ExpByte) : enc8 (dec8 b) = b := by
  rw [enc8, dec8, BitVec.ofInt_toInt, rotl8_rotr8]

theorem dec8_enc8 {e : Int} (h : -128 ≤ e) (h' : e ≤ 127) : dec8 (enc8 e) = e := by
  rw [dec8, enc8, rotr8_rotl8]
  exact BitVec.toInt_ofInt_eq_self (by decide) h (Int.lt_add_one_of_le h')

theorem dec8_range (b : ExpByte) : -128 ≤ dec8 b ∧ dec8 b ≤ 127 :=
  ⟨BitVec.le_toInt (rotr8 b), Int.le_of_lt_add_one BitVec.toInt_lt⟩

/-- Settles O26: rotating back and forth is the identity on a byte, and so is reading it as two's complement. -/
theorem exponentByteIsRotatedTwosComplement : Obligations.ExponentByteIsRotatedTwosComplement := by
  refine ⟨fun e h h' => ⟨dec8_enc8 h h', rfl⟩, fun b => ?_, by decide⟩
  obtain ⟨hlo, hhi⟩ := dec8_range b
  exact ⟨hlo, hhi, enc8_dec8 b, rfl⟩

/-- Outside −128..127 the exponent byte is the open one (40_codec.md R73). -/
theorem expByte_of_expanded {e : Int} (h : ¬ (-128 ≤ e ∧ e ≤ 127)) : expByte e = Config.xePack e := if_neg h

@[simp] theorem expByte_dec8 (b : ExpByte) : expByte (dec8 b) = b := by
  rw [expByte, if_pos (dec8_range b), enc8_dec8]

/-! ## The fields of packed words -/

theorem joinWords_lt (ws : List Word) : joinWords ws < 2 ^ (16 * ws.length) := by
  induction ws using List.reverseRecOn with
  | nil => decide
  | append_singleton ws w ih =>
    have hw := w.isLt
    rw [joinWords_append_singleton, List.length_append, List.length_singleton, mul_add, pow_add]
    omega

/-- Joining words and splitting the number again gives the words (40_codec.md R63). -/
theorem splitWords_joinWords (ws : List Word) : splitWords ws.length (joinWords ws) = ws := by
  induction ws using List.reverseRecOn with
  | nil => rfl
  | append_singleton ws w ih =>
    have hw := w.isLt
    have hhi : (joinWords ws * 2 ^ 16 + w.toNat) / 2 ^ 16 = joinWords ws := by omega
    have hlo : BitVec.ofNat 16 (joinWords ws * 2 ^ 16 + w.toNat) = w :=
      BitVec.eq_of_toNat_eq (by rw [BitVec.toNat_ofNat]; omega)
    rw [List.length_append, List.length_singleton, splitWords_succ, joinWords_append_singleton, hhi, hlo, ih]

/-- The two fields are the whole pattern (40_codec.md R63). -/
theorem joinWords_eq_fields (ws : List Word) : joinWords ws = mantField ws * 2 ^ 8 + (expField ws).toNat := by
  rw [mantField, expField, BitVec.toNat_ofNat]
  omega

/-- The mantissa field of n_P words has M_P bits (40_codec.md R63). -/
theorem mantField_lt {p : Prec} {ws : List Word} (h : ws.length = nWords p) : mantField ws < 2 ^ keptBits p := by
  have hlt := joinWords_lt ws
  rw [h] at hlt
  unfold mantField
  cases p <;> simp only [nWords_f, nWords_x, nWords_t, keptBits_f, keptBits_x, keptBits_t] at * <;> omega

/-- The exponent byte is the low byte of the last word (40_codec.md R63). -/
theorem expField_append_singleton (ws : List Word) (w : Word) : expField (ws ++ [w]) = w.extractLsb' 0 8 := by
  apply BitVec.eq_of_toNat_eq
  rw [expField, joinWords_append_singleton, BitVec.toNat_ofNat, toNat_field]
  omega

/-! ## Encode -/

theorem bits_cast (n : Nat) (x : Int) : (bits n x : Int) = x % 2 ^ n :=
  Int.toNat_of_nonneg (Int.emod_nonneg _ (by positivity))

theorem bits_lt (n : Nat) (x : Int) : bits n x < 2 ^ n := by
  zify
  rw [bits_cast]
  exact Int.emod_lt_of_pos _ (by positivity)

/-- The pattern of encode_P: the retained field over the exponent byte, which fill the n_P words (40_codec.md R68). -/
theorem joinWords_fpEncode (p : Prec) (m e : Int) :
    joinWords (fpEncode p m e) = bits (keptBits p) (asr m (dropBits p)) * 2 ^ 8 + (expByte e).toNat := by
  have hm := bits_lt (keptBits p) (asr m (dropBits p))
  have he := (expByte e).isLt
  rw [fpEncode, joinWords_splitWords, Nat.mod_eq_of_lt]
  cases p <;> simp only [nWords_f, nWords_x, nWords_t, keptBits_f, keptBits_x, keptBits_t] at * <;> omega

theorem mantField_fpEncode_eq_bits (p : Prec) (m e : Int) :
    mantField (fpEncode p m e) = bits (keptBits p) (asr m (dropBits p)) := by
  have he := (expByte e).isLt
  rw [mantField, joinWords_fpEncode]
  omega

theorem expField_fpEncode (p : Prec) (m e : Int) : expField (fpEncode p m e) = expByte e := by
  apply BitVec.eq_of_toNat_eq
  have he := (expByte e).isLt
  rw [expField, joinWords_fpEncode, BitVec.toNat_ofNat]
  omega

/-! ## Unpack -/

theorem sext_range {n v : Nat} (hn : 0 < n) (hv : v < 2 ^ n) :
    -2 ^ (n - 1) ≤ sext n v ∧ sext n v < 2 ^ (n - 1) := by
  obtain ⟨n, rfl⟩ := Nat.exists_eq_add_one.mpr hn
  rw [sext, Nat.add_sub_cancel, pow_succ]
  rw [pow_succ] at hv
  zify at hv ⊢
  split <;> omega

/-- Sign extension keeps the pattern. -/
theorem bits_sext {n v : Nat} (hv : v < 2 ^ n) : bits n (sext n v) = v := by
  have hmod : (v : Int) % 2 ^ n = v := Int.emod_eq_of_lt (by positivity) (by exact_mod_cast hv)
  zify
  rw [bits_cast, sext]
  split
  · rw [Int.sub_emod_right, hmod]
  · exact hmod

/-- A word in front of k more bits puts its sign on the whole field. -/
theorem sext_word_append (w : Word) {k r : Nat} (hr : r < 2 ^ k) :
    sext (16 + k) (w.toNat * 2 ^ k + r) = w.toInt * 2 ^ k + r := by
  have hsign : 2 ^ (16 + k - 1) ≤ w.toNat * 2 ^ k + r ↔ 2 ^ 15 ≤ w.toNat := by
    rw [show 16 + k - 1 = 15 + k by omega, pow_add, ← Nat.le_div_iff_mul_le (by positivity), add_comm,
      Nat.add_mul_div_right _ _ (by positivity), Nat.div_eq_of_lt hr, zero_add]
  by_cases hw : 2 ^ 15 ≤ w.toNat
  · rw [sext, if_pos (hsign.mpr hw), BitVec.toInt_eq_toNat_cond, if_neg (by omega), pow_add]
    push_cast
    ring
  · rw [sext, if_neg (mt hsign.mp hw), BitVec.toInt_eq_toNat_cond, if_pos (by omega)]
    push_cast
    rfl

section
variable {p : Prec} {ws : List Word} (h : ws.length = nWords p)
include h

/-- The left-justified field lies in the range of a mantissa, so unpack loses nothing (40_codec.md R64). -/
theorem fpUnpack_mi : (fpUnpack p ws).mi = sext (keptBits p) (mantField ws) * 2 ^ dropBits p := by
  have hs := sext_range (by cases p <;> decide) (mantField_lt h)
  refine narrow_mi _ _ ?_ ?_ <;> cases p <;>
    simp only [keptBits_f, keptBits_x, keptBits_t, dropBits_f, dropBits_x, dropBits_t] at * <;> omega

theorem asr_fpUnpack_mi : asr (fpUnpack p ws).mi (dropBits p) = sext (keptBits p) (mantField ws) := by
  rw [fpUnpack_mi h, asr_eq, Int.mul_ediv_cancel _ (by positivity)]

/-- Unpack leaves the discarded bits zero, so clearing them changes nothing (40_codec.md R64, R67). -/
theorem fpClear_fpUnpack : fpClear p (fpUnpack p ws) = fpUnpack p ws :=
  working_ext (by rw [fpClear_mi, asr_fpUnpack_mi h, fpUnpack_mi h]) rfl

/-- Encoding what a pattern unpacks to gives the pattern back, normalized or not (40_codec.md R64, R68). -/
theorem fpEncode_fpUnpack : fpEncode p (fpUnpack p ws).mi (fpUnpack p ws).e = ws := by
  have he : expByte (fpUnpack p ws).e = expField ws := expByte_dec8 _
  rw [fpEncode, asr_fpUnpack_mi h, bits_sext (mantField_lt h), he, ← joinWords_eq_fields, ← h, splitWords_joinWords]

/-- A pattern with a normalized mantissa field unpacks to a normalized value (40_codec.md R74). -/
theorem fpUnpack_normalized (hf : fieldNormalized p ws) : normalized (fpUnpack p ws) := by
  rw [← fpEncode_fpUnpack h, fieldNormalized, mantField_fpEncode, Nat.testBit_div_two_pow, Nat.testBit_div_two_pow,
    BitVec.testBit_toNat, BitVec.testBit_toNat] at hf
  have htop : (fpUnpack p ws).m.getLsbD 63 ≠ (fpUnpack p ws).m.getLsbD 62 := by cases p <;> exact hf
  exact (normalized_iff _).mpr ((top_bits_differ_iff _).mp htop)

end

theorem joinWords_zeroWords (p : Prec) : joinWords (zeroWords p) = 0 := by cases p <;> rfl

/-- The all-zero pattern is the zero value (40_codec.md R64). -/
theorem fpUnpack_zeroWords (p : Prec) : fpUnpack p (zeroWords p) = Working.zero := by
  have hsext : sext (keptBits p) 0 = 0 := by cases p <;> rfl
  refine working_ext ?_ ?_
  · rw [fpUnpack_mi (zeroWords_length p), mantField, joinWords_zeroWords, Nat.zero_div, hsext, zero_mul]; rfl
  · rw [fpUnpack, expField, joinWords_zeroWords]; rfl

/-- Settles O28: the field is left-justified without loss, so the discarded bits are zero. -/
theorem unpackSignExtendsAndLeftJustifies : Obligations.UnpackSignExtendsAndLeftJustifies := by
  refine ⟨fun p ws h => ⟨fpUnpack_mi h, rfl, ?_, mi_range _⟩, fpUnpack_zeroWords⟩
  rw [fpUnpack_mi h, Int.mul_emod_left]

/-- The mantissa of a pattern whose field is a word w, which carries the sign, in front of r. -/
theorem fpUnpack_mi_of_first_word {p : Prec} {ws : List Word} (h : ws.length = nWords p) (w : Word) {k r : Nat}
    (hk : keptBits p = 16 + k) (hr : r < 2 ^ k) (hf : mantField ws = w.toNat * 2 ^ k + r) :
    (fpUnpack p ws).mi = (w.toInt * 2 ^ k + r) * 2 ^ dropBits p := by
  rw [fpUnpack_mi h, hf, hk, sext_word_append w hr]

/-- Settles O27: the first word carries the sign of the field, and the low byte of the last
word is the exponent byte. -/
theorem unpackReadsTheWordLayout : Obligations.UnpackReadsTheWordLayout := by
  refine ⟨fun w0 w1 => ⟨?f, ?_⟩, fun w0 w1 w2 => ⟨?x, ?_⟩, fun w0 w1 w2 w3 => ⟨?t, ?_⟩⟩
  case f =>
    have hf : mantField [w0, w1] = w0.toNat * 2 ^ 8 + w1.toNat / 2 ^ 8 := by
      simp only [mantField, joinWords, List.foldl_cons, List.foldl_nil]; omega
    rw [fpUnpack_mi_of_first_word rfl w0 rfl (by omega) hf, dropBits_f]
    push_cast; ring
  case x =>
    have hf : mantField [w0, w1, w2] = w0.toNat * 2 ^ 24 + (w1.toNat * 2 ^ 8 + w2.toNat / 2 ^ 8) := by
      simp only [mantField, joinWords, List.foldl_cons, List.foldl_nil]; omega
    rw [fpUnpack_mi_of_first_word rfl w0 rfl (by omega) hf, dropBits_x]
    push_cast; ring
  case t =>
    have hf : mantField [w0, w1, w2, w3] =
        w0.toNat * 2 ^ 40 + (w1.toNat * 2 ^ 24 + w2.toNat * 2 ^ 8 + w3.toNat / 2 ^ 8) := by
      simp only [mantField, joinWords, List.foldl_cons, List.foldl_nil]; omega
    rw [fpUnpack_mi_of_first_word rfl w0 rfl (by omega) hf, dropBits_t]
    push_cast; ring
  · exact congrArg dec8 (expField_append_singleton [w0] w1)
  · exact congrArg dec8 (expField_append_singleton [w0, w1] w2)
  · exact congrArg dec8 (expField_append_singleton [w0, w1, w2] w3)

end Sys2Proof.Machine
end

section
/-! The pack step (40_codec.md R68 to R74): what it writes in each of its four cases, the sentinels, the round trip with
unpack, and the instructions UNPK and PACK. -/

namespace Sys2Proof.Machine

/-! ## The four cases of the pack step -/

theorem fpRound_of_zero (p : Prec) {x : Working} (hx : x.m = 0#64) : fpRound p x = Working.zero := by
  simp [fpRound, fpNormalize, hx, Working.zero]

section
variable {p : Prec} {xe : Bool} {x : Working}

theorem fpPack_of_zero (h0 : (fpRound p x).mi = 0) : fpPack p xe x = ⟨zeroWords p, .value, fpRound p x⟩ := by
  rw [mi_eq_zero_iff] at h0
  simp [fpPack, h0]

theorem fpPack_of_underflow (h0 : (fpRound p x).mi ≠ 0) (he : (fpRound p x).e < eMin xe) :
    fpPack p xe x = ⟨zeroWords p, .underflow, fpRound p x⟩ := by
  rw [ne_eq, mi_eq_zero_iff] at h0
  simp [fpPack, h0, he]

theorem fpPack_of_overflow (h0 : (fpRound p x).mi ≠ 0) (he : eMax xe < (fpRound p x).e) :
    fpPack p xe x =
      ⟨fpEncode p (sentinel p (decide ((fpRound p x).mi < 0))) (eMax xe), .overflow, fpRound p x⟩ := by
  have hlo : ¬ (fpRound p x).e < eMin xe := by
    have hle : eMin xe ≤ eMax xe := by cases xe <;> decide
    omega
  rw [ne_eq, mi_eq_zero_iff] at h0
  simp [fpPack, h0, hlo, he]

theorem fpPack_of_inRange (h0 : (fpRound p x).mi ≠ 0) (hlo : eMin xe ≤ (fpRound p x).e)
    (hhi : (fpRound p x).e ≤ eMax xe) :
    fpPack p xe x = ⟨fpEncode p (fpRound p x).mi (fpRound p x).e, .value, fpRound p x⟩ := by
  rw [ne_eq, mi_eq_zero_iff] at h0
  simp [fpPack, h0, not_lt.mpr hlo, not_lt.mpr hhi]

end

/-- The mantissa field of encode_P as an integer, whatever the exponent (40_codec.md R68). -/
theorem mantField_fpEncode_cast (p : Prec) (m e : Int) :
    (mantField (fpEncode p m e) : Int) = m / 2 ^ dropBits p % 2 ^ keptBits p := by
  rw [mantField_fpEncode_eq_bits, bits_cast, asr_eq]

/-- Settles O29: one clause for each case of the pack step, and the fields of what encode_P writes. -/
theorem packTestsZeroUnderflowOverflowThenEncodes : Obligations.PackTestsZeroUnderflowOverflowThenEncodes := by
  refine ⟨?_, fun p m e _ _ => ⟨fpEncode_length p m e, mantField_fpEncode_cast p m e, expField_fpEncode p m e⟩⟩
  rintro p xe x _ rfl
  refine ⟨fpPack_r p xe x, fun h0 => ?_, fun h0 he => ?_, fun h0 he => ?_, fun h0 hlo hhi => ?_⟩
  · rw [fpPack_of_zero h0]; exact ⟨rfl, rfl⟩
  · rw [fpPack_of_underflow h0 he]; exact ⟨rfl, rfl⟩
  · rw [fpPack_of_overflow h0 he]; exact ⟨rfl, rfl⟩
  · rw [fpPack_of_inRange h0 hlo hhi]; exact ⟨rfl, rfl⟩

/-! ## The sentinels -/

/-- The table of 40_codec.md R70. -/
theorem fpEncode_sentinel (p : Prec) (negative : Bool) :
    fpEncode p (sentinel p negative) 127 = packedSentinel p negative := by
  cases p <;> cases negative <;> rfl

/-- The mantissa field of a sentinel does not depend on the exponent it is packed with (40_codec.md R70). -/
theorem mantField_fpEncode_sentinel (p : Prec) (negative : Bool) (e : Int) :
    mantField (fpEncode p (sentinel p negative) e) = mantField (packedSentinel p negative) := by
  rw [← fpEncode_sentinel, mantField_fpEncode_eq_bits, mantField_fpEncode_eq_bits]

/-- Settles O30, by the overflow case of the pack step. -/
theorem packedSentinelsAreTheTable : Obligations.PackedSentinelsAreTheTable := by
  refine ⟨fun p => ⟨rfl, rfl⟩, rfl, fun p xe x h0 he => ?_⟩
  rw [fpPack_of_overflow h0 he]
  refine ⟨?_, ?_⟩ <;> rintro rfl
  · exact fpEncode_sentinel p _
  · exact ⟨mantField_fpEncode_sentinel p _ 511,
      (expField_fpEncode p _ 511).trans (expByte_of_expanded (by decide))⟩

/-! ## The round trip -/

/-- A normalized value in range whose discarded bits are zero packs as it stands: round adds bits below the retained
field only (40_codec.md R74, 41_normalize_round.md R86). -/
theorem fpPack_of_cleared {p : Prec} {xe : Bool} {x : Working} (hx : normalized x) (hc : fpClear p x = x)
    (hlo : eMin xe ≤ x.e) (hhi : x.e ≤ eMax xe) :
    (fpPack p xe x).words = fpEncode p x.mi x.e ∧ (fpPack p xe x).st = .value := by
  obtain ⟨⟨hne, -⟩, he, hm⟩ := fpRound_fpClear p hx
  rw [hc] at hne he hm
  rw [fpPack_of_inRange (mt (mi_eq_zero_iff _).mp hne) (he ▸ hlo) (he ▸ hhi), fpEncode, he, hm]
  exact ⟨rfl, rfl⟩

/-- Settles O33: the unpacked value is normalized, cleared and in range, and encoding it gives the pattern back. -/
theorem packOfUnpackIsIdentity : Obligations.PackOfUnpackIsIdentity := by
  intro p ws h hf
  obtain ⟨hlo, hhi⟩ := dec8_range (expField ws)
  obtain ⟨hwords, hst⟩ := fpPack_of_cleared (xe := false) (fpUnpack_normalized h hf) (fpClear_fpUnpack h) hlo hhi
  exact ⟨hwords.trans (fpEncode_fpUnpack h), hst⟩

/-- A zero mantissa packs to the zero words, whatever its exponent and XE (40_codec.md R72). -/
theorem fpPack_of_zero_operand (p : Prec) (xe : Bool) {x : Working} (hx : x.m = 0#64) :
    fpPack p xe x = ⟨zeroWords p, .value, Working.zero⟩ := by
  have hr := fpRound_of_zero p hx
  rw [fpPack_of_zero (by rw [hr]; rfl), hr]

/-- Whatever the pack step writes survives unpacking and packing again with XE = 0 (40_codec.md R70, R72, R74). -/
theorem fpPack_fpUnpack_fpPack_words (p : Prec) (xe : Bool) (x : Working) :
    (fpPack p false (fpUnpack p (fpPack p xe x).words)).words = (fpPack p xe x).words := by
  rcases fpPack_words_zero_or_fieldNormalized p xe x with hz | hf
  · rw [hz, fpUnpack_zeroWords, fpPack_of_zero_operand p false rfl]
  · exact (packOfUnpackIsIdentity p _ (fpPack_words_length p xe x) hf).1

/-- Settles O35: a driven PO is what a pack step wrote. -/
theorem packedResultRepacksToItself : Obligations.PackedResultRepacksToItself := by
  intro i s t ws h _ hpo
  rcases exec_next h with ⟨y, rfl⟩ | ⟨v, y, x, -, rfl⟩ | rfl
  · cases hpo
  · cases hpo; exact fpPack_fpUnpack_fpPack_words i.prec i.xe x
  · cases hpo

/-! ## UNPK and PACK -/

/-- Settles O10: enough words are driven, so UNPK reads the first n_P of them. -/
theorem unpkDrivesTheUnpackedValue : Obligations.UnpkDrivesTheUnpackedValue := by
  intro s p xe h
  rw [exec, execUnpk, withPI_of_driven _ h]
  rfl

/-- Settles O11: A is driven and O written, so neither read stops; the pack step hands back the rounded A. -/
theorem packDrivesThePackedAndClearedValue : Obligations.PackDrivesThePackedAndClearedValue := by
  intro s p xe a v ha ho
  rw [exec, execPack, withA_of_driven _ ha, completePacked_of_written _ _ ho, fpPack_r]
  rfl

/-- Settles O31: round takes a zero operand to (0, 0) before any range test. -/
theorem zeroPacksToTheAllZeroPattern : Obligations.ZeroPacksToTheAllZeroPattern := by
  refine ⟨fun p xe e => ?_, fun p xe s a v ha ho hm => ?_⟩
  · rw [fpPack_of_zero_operand p xe rfl]; exact ⟨rfl, rfl⟩
  · refine ⟨_, packDrivesThePackedAndClearedValue s p xe a v ha ho, ?_⟩
    rw [fpPack_of_zero_operand p xe hm]
    exact ⟨congrArg _ (Bool.or_false v), rfl, rfl⟩

/-- Settles O32: the exponent is in range for XE = 1, so PACK encodes it, with the open byte. -/
theorem expandedExponentPacksWithXePackByte : Obligations.ExpandedExponentPacksWithXePackByte := by
  rintro p s a _ v ha ho rfl h0 he
  have hpack : fpPack p true a = ⟨fpEncode p (fpRound p a).mi (fpRound p a).e, .value, fpRound p a⟩ :=
    fpPack_of_inRange h0 (by rw [eMin_true]; omega) (by rw [eMax_true]; omega)
  refine ⟨_, fpEncode p (fpRound p a).mi (fpRound p a).e, packDrivesThePackedAndClearedValue s p true a v ha ho, ?_⟩
  rw [hpack]
  exact ⟨rfl, congrArg _ (Bool.or_false v), rfl, fpEncode_length _ _ _, mantField_fpEncode_cast _ _ _,
    (expField_fpEncode _ _ _).trans (expByte_of_expanded (by omega))⟩

end Sys2Proof.Machine
end

section
/-! The normalizer and the rounder (41_normalize_round.md R81 to R86): normalize doubles to the one canonical form,
round adds the rounding constant and moves the exponent by at most one, and clearing what it answers is the tie rule. -/

namespace Sys2Proof.Machine

/-! ## Normalize -/

/-- The loop doubles the mantissa some number of times, each lowering the exponent by one, and loses nothing
(41_normalize_round.md R81). -/
theorem fpNormalizeLoop_doublings (n : Nat) (m : Mantissa) (e : Int) :
    ∃ k ≤ n, (fpNormalizeLoop n m e).mi = m.toInt * 2 ^ k ∧ (fpNormalizeLoop n m e).e = e - k := by
  induction n generalizing m e with
  | zero => exact ⟨0, le_rfl, (mul_one _).symm, (sub_zero e).symm⟩
  | succ n ih =>
    unfold fpNormalizeLoop
    split
    · next heq =>
      obtain ⟨k, hk, hm, he⟩ := ih (m <<< 1) (e - 1)
      refine ⟨k + 1, by omega, ?_, by rw [he]; omega⟩
      rw [hm, toInt_shiftLeft_one heq, mul_assoc, ← pow_succ']
    · exact ⟨0, Nat.zero_le _, (mul_one _).symm, (sub_zero e).symm⟩

theorem fpNormalize_doublings {x : Working} (hx : x.mi ≠ 0) :
    ∃ k : Nat, k ≤ 63 ∧ (fpNormalize x).mi = x.mi * 2 ^ k ∧ (fpNormalize x).e = x.e - k := by
  rw [fpNormalize, if_neg (mt (mi_eq_zero_iff x).mpr hx)]
  exact fpNormalizeLoop_doublings 63 x.m x.e

/-- The loop stops at the one number of doublings that normalizes: none before it reaches the top bits. -/
theorem fpNormalizeLoop_eq_of_doublings {n k : Nat} {m : Mantissa} {e : Int} {y : Working} (hk : k ≤ n)
    (hy : normalized y) (hm : y.mi = m.toInt * 2 ^ k) (he : y.e = e - k) : fpNormalizeLoop n m e = y := by
  induction k generalizing n m e with
  | zero =>
    obtain rfl : y = ⟨m, e⟩ := working_ext (hm.trans (mul_one _)) (he.trans (sub_zero e))
    cases n with
    | zero => rfl
    | succ n => rw [fpNormalizeLoop, if_neg hy.2]
  | succ k ih =>
    obtain ⟨n, rfl⟩ : ∃ n', n = n' + 1 := ⟨n - 1, by omega⟩
    have htop : m.getLsbD 63 = m.getLsbD 62 := by
      by_contra hne
      have hpow : (1 : Int) ≤ 2 ^ k := one_le_pow₀ (by norm_num)
      have hr := mi_range y
      rw [hm, pow_succ (2 : Int) k] at hr
      rcases (top_bits_differ_iff m).mp hne with h | h <;> nlinarith
    rw [fpNormalizeLoop, if_pos htop]
    refine ih (by omega) ?_ (by omega)
    rw [hm, toInt_shiftLeft_one htop, mul_assoc, ← pow_succ']

/-- A normalized value is what normalize makes of any value that doublings lead to it from. -/
theorem fpNormalize_eq_of_doublings {x y : Working} (k : Nat) (hk : k ≤ 63) (hy : normalized y)
    (hm : y.mi = x.mi * 2 ^ k) (he : y.e = x.e - k) : fpNormalize x = y := by
  have hx : x.m ≠ 0#64 := by
    intro h0
    rw [(mi_eq_zero_iff x).mpr h0, zero_mul, mi_eq_zero_iff] at hm
    exact hy.1 hm
  rw [fpNormalize, if_neg hx]
  exact fpNormalizeLoop_eq_of_doublings hk hy hm he

theorem fpNormalize_mi_neg_iff {x : Working} (hx : x.mi ≠ 0) : (fpNormalize x).mi < 0 ↔ x.mi < 0 := by
  obtain ⟨k, -, hm, -⟩ := fpNormalize_doublings hx
  rw [hm]
  exact lt_iff_lt_of_le_iff_le (mul_nonneg_iff_of_pos_right (by positivity))

/-- Settles O38: the loop's doublings lead to a normalized value, and no other number of them does. -/
theorem normalizeShiftsToCanonicalForm : Obligations.NormalizeShiftsToCanonicalForm := by
  refine ⟨fun _ => rfl, fun x hx => ?_, fun x => fpNormalize_of_normalized, fun e => ⟨?_, ?_⟩⟩
  · have hn := fpNormalize_normalized hx
    have hm := (normalized_iff _).mp hn
    have hr := mi_range (fpNormalize x)
    exact ⟨hn, by omega, fpNormalize_doublings hx⟩
  · exact fpNormalize_eq_of_doublings 62 (by decide) ⟨by simp, by simp⟩ (by simp [Working.mi]) rfl
  · exact fpNormalize_eq_of_doublings 63 (by decide) ⟨by simp, by simp⟩ (by simp [Working.mi]) rfl

/-! ## Round -/

/-- The rounding constant for a normalized mantissa m: H_P, one less for a negative m (41_normalize_round.md R82). -/
def roundBias (p : Prec) (m : Int) : Int := if 0 ≤ m then halfUnit p else halfUnit p - 1

theorem roundBias_of_nonneg (p : Prec) {m : Int} (h : 0 ≤ m) : roundBias p m = halfUnit p := if_pos h

theorem roundBias_of_neg (p : Prec) {m : Int} (h : m < 0) : roundBias p m = halfUnit p - 1 := if_neg (not_le.mpr h)

theorem roundBias_cases (p : Prec) (m : Int) :
    0 ≤ m ∧ roundBias p m = halfUnit p ∨ m < 0 ∧ roundBias p m = halfUnit p - 1 :=
  (le_or_gt 0 m).imp (fun h => ⟨h, roundBias_of_nonneg p h⟩) (fun h => ⟨h, roundBias_of_neg p h⟩)

/-- The three ways round answers for a non-zero operand, by the sum t of its normalized mantissa and the rounding
constant: halved on the carry-out, as it stands, or doubled where a negative t is no longer normalized
(41_normalize_round.md R82, R84). -/
theorem fpRound_of_ne_zero (p : Prec) {x n : Working} {t : Int} (hx : x.mi ≠ 0) (hn : fpNormalize x = n)
    (ht : n.mi + roundBias p n.mi = t) :
    (0 ≤ n.mi ∧ 2 ^ 63 ≤ t ∧ fpRound p x = narrow (t / 2) (n.e + 1)) ∨
    ((2 ^ 62 ≤ t ∧ t < 2 ^ 63 ∨ -2 ^ 63 ≤ t ∧ t < -2 ^ 62) ∧ fpRound p x = narrow t n.e) ∨
    (n.mi < 0 ∧ -2 ^ 62 ≤ t ∧ fpRound p x = narrow (t * 2) (n.e - 1)) := by
  obtain ⟨hH, hH'⟩ := halfUnit_range p
  have hnorm : normalized n := hn ▸ fpNormalize_normalized hx
  have hm := (normalized_iff n).mp hnorm
  have hr := mi_range n
  have hround := fpRound_cases p x
  rw [hn] at hround
  rcases hround with ⟨hzero, -⟩ | ⟨hpos, hcarry, h⟩ | ⟨hpos, hfit, h⟩ | ⟨hneg, h⟩
  · exact absurd hzero hnorm.1
  · rw [roundBias_of_nonneg p hpos] at ht
    exact .inl ⟨hpos, ht ▸ hcarry, ht ▸ h⟩
  · rw [roundBias_of_nonneg p hpos] at ht
    rw [ht] at h hfit
    exact .inr (.inl ⟨by omega, h.trans (fpNormalize_of_normalized (narrow_normalized _ (by omega) (by omega)))⟩)
  · rw [roundBias_of_neg p hneg] at ht
    rw [ht] at h
    by_cases hlt : t < -2 ^ 62
    · exact .inr (.inl ⟨by omega, h.trans (fpNormalize_of_normalized (narrow_normalized _ (by omega) (by omega)))⟩)
    · refine .inr (.inr ⟨hneg, by omega, h.trans ?_⟩)
      refine fpNormalize_eq_of_doublings 1 (by decide) (narrow_normalized _ (by omega) (by omega)) ?_ rfl
      rw [narrow_mi _ _ (by omega) (by omega), narrow_mi _ _ (by omega) (by omega), pow_one]

/-! ## Clear -/

/-- The multiple of u at or below t, less than u away, is what clearing leaves of t. -/
theorem ediv_mul_eq_of_dvd {t u b : Int} (hb : u ∣ b) (hlo : b ≤ t) (hhi : t < b + u) : t / u * u = b := by
  obtain ⟨c, rfl⟩ := exists_eq_mul_left_of_dvd hb
  rw [(Int.ediv_eq_iff_of_pos (by omega)).mpr ⟨hlo, hhi⟩]

theorem fpClear_eq_of_dvd {p : Prec} {r : Working} {b : Int} (hb : (2 : Int) ^ dropBits p ∣ b) (hlo : b ≤ r.mi)
    (hhi : r.mi < b + 2 ^ dropBits p) : fpClear p r = narrow b r.e := by
  rw [fpClear, asr_eq, ediv_mul_eq_of_dvd hb hlo hhi]

/-- H_P is half of the retained field's unit 2^K (00_scope.md R9). -/
theorem two_mul_halfUnit (p : Prec) : 2 * halfUnit p = 2 ^ dropBits p := by cases p <;> rfl

/-- The ends of the normalized range are whole units of 2^K (00_scope.md R9, R17). -/
theorem unit_dvd_two_pow (p : Prec) {n : Nat} (hn : 62 ≤ n) : (2 : Int) ^ dropBits p ∣ 2 ^ n :=
  pow_dvd_pow 2 ((by cases p <;> decide : dropBits p ≤ 62).trans hn)

/-! ## Sign, range and exponent of round -/

/-- Settles O40: one clause for each of the three ways round answers. -/
theorem roundKeepsSignAndBoundsTheExponent : Obligations.RoundKeepsSignAndBoundsTheExponent := by
  rintro p x n r hx hn hr
  have hsign := fpNormalize_mi_neg_iff hx
  have hm := (normalized_iff _).mp (fpNormalize_normalized hx)
  have hrange := mi_range n
  have hH := halfUnit_range p
  have hU := two_mul_halfUnit p
  rw [hn] at hsign hm
  rw [normalized_iff, ← hsign]
  rcases fpRound_of_ne_zero p hx hn rfl with ⟨hpos, hcarry, h⟩ | ⟨hfit, h⟩ | ⟨hneg, hren, h⟩ <;> rw [hr] at h
  · rw [roundBias_of_nonneg p hpos] at hcarry h
    have hmi : r.mi = (n.mi + halfUnit p) / 2 := by rw [h, narrow_mi _ _ (by omega) (by omega)]
    have he : r.e = n.e + 1 := by rw [h, narrow_e]
    have hclear := fpClear_eq_of_dvd (r := r) (unit_dvd_two_pow p le_rfl) (by omega) (by omega)
    exact ⟨by omega, by omega, fun _ => ⟨he, by omega, by omega, by rw [hclear, he]; rfl⟩, by omega, by omega⟩
  · have hmi : r.mi = n.mi + roundBias p n.mi := by rw [h, narrow_mi _ _ (by omega) (by omega)]
    have he : r.e = n.e := by rw [h, narrow_e]
    have hbias := roundBias_cases p n.mi
    exact ⟨by omega, by omega, by omega, by omega, fun _ _ => he⟩
  · rw [roundBias_of_neg p hneg] at hren h
    have hmi : r.mi = (n.mi + (halfUnit p - 1)) * 2 := by rw [h, narrow_mi _ _ (by omega) (by omega)]
    have he : r.e = n.e - 1 := by rw [h, narrow_e]
    have hclear := fpClear_eq_of_dvd (r := r) (unit_dvd_two_pow p (n := 63) (by decide)).neg_right
      (by omega) (by omega)
    exact ⟨by omega, by omega, by omega, fun _ _ => ⟨he, by omega, by rw [hclear, he]; rfl⟩, by omega⟩

/-! ## The tie rule -/

/-- Adding c below a unit of u carries into the units exactly when the part below them has reached u − c. -/
theorem add_ediv_eq_ite {m u c : Int} (hc : 0 ≤ c) (hcu : c < u) :
    (m + c) / u = if u - c ≤ m - m / u * u then m / u + 1 else m / u := by
  have hu : 0 < u := by omega
  obtain ⟨hlo, hhi⟩ := (Int.ediv_eq_iff_of_pos hu).mp (rfl : m / u = m / u)
  split <;> rw [Int.ediv_eq_iff_of_pos hu]
  · rw [add_one_mul]; omega
  · omega

/-- The tie rule is what the rounding constant does to the retained field (41_normalize_round.md R83). -/
theorem add_roundBias_ediv (p : Prec) (m : Int) : (m + roundBias p m) / 2 ^ dropBits p =
    if 0 ≤ m then (if halfUnit p ≤ m - m / 2 ^ dropBits p * 2 ^ dropBits p
        then m / 2 ^ dropBits p + 1 else m / 2 ^ dropBits p)
      else (if halfUnit p < m - m / 2 ^ dropBits p * 2 ^ dropBits p
        then m / 2 ^ dropBits p + 1 else m / 2 ^ dropBits p) := by
  have hH := halfUnit_range p
  have hU := two_mul_halfUnit p
  unfold roundBias
  split <;> rw [add_ediv_eq_ite (by omega) (by omega)] <;> exact if_congr (by omega) rfl rfl

theorem smallestPositive_mi (e : Int) : (⟨0x4000000000000000#64, e⟩ : Working).mi = 2 ^ 62 := by simp [Working.mi]

theorem mostNegative_mi (e : Int) : (⟨0x8000000000000000#64, e⟩ : Working).mi = -2 ^ 63 := by simp [Working.mi]

/-- Rounded and cleared, a non-zero value is the whole units of its biased normalized mantissa, at the normalized
exponent up to one renormalizing shift (41_normalize_round.md R83, R84). -/
theorem fpClear_fpRound_of_ne_zero (p : Prec) {x n : Working} {u : Int} (hx : x.mi ≠ 0) (hn : fpNormalize x = n)
    (hu : (n.mi + roundBias p n.mi) / 2 ^ dropBits p * 2 ^ dropBits p = u) :
    ((fpClear p (fpRound p x)).e = n.e ∧ (fpClear p (fpRound p x)).mi = u) ∨
    ((fpClear p (fpRound p x)).e = n.e + 1 ∧ 2 * (fpClear p (fpRound p x)).mi = u) ∨
    ((fpClear p (fpRound p x)).e = n.e - 1 ∧ (fpClear p (fpRound p x)).mi = 2 * u) := by
  obtain ⟨-, -, hclearCarry, hclearRenorm, -⟩ := roundKeepsSignAndBoundsTheExponent p x n _ hx hn rfl
  have hrange := mi_range n
  have hH := halfUnit_range p
  have hU := two_mul_halfUnit p
  have hnorm := (normalized_iff _).mp (fpNormalize_normalized hx)
  rw [hn] at hnorm
  rcases fpRound_of_ne_zero p hx hn rfl with ⟨hpos, hcarry, -⟩ | ⟨hfit, h⟩ | ⟨hneg, hren, -⟩
  · rw [roundBias_of_nonneg p hpos] at hcarry hu
    obtain ⟨-, -, -, hc⟩ := hclearCarry hcarry
    rw [ediv_mul_eq_of_dvd (unit_dvd_two_pow p (n := 63) (by decide)) hcarry (by omega)] at hu
    rw [hc]
    exact .inr (.inl ⟨rfl, by rw [smallestPositive_mi]; omega⟩)
  · rw [fpClear_mi, h, narrow_mi _ _ (by omega) (by omega), asr_eq]
    exact .inl ⟨rfl, hu⟩
  · rw [roundBias_of_neg p hneg] at hren hu
    obtain ⟨-, -, hc⟩ := hclearRenorm hneg hren
    rw [ediv_mul_eq_of_dvd (unit_dvd_two_pow p le_rfl).neg_right hren (by omega)] at hu
    rw [hc]
    exact .inr (.inr ⟨rfl, by rw [mostNegative_mi]; omega⟩)

/-- Settles O39: the field after the tie rule is the floor of the biased mantissa, so it is within half a unit. -/
theorem roundsToNearestTiesToLargerMagnitude : Obligations.RoundsToNearestTiesToLargerMagnitude := by
  rintro p x n c q q' d hx hn hc rfl rfl hq
  have hH := halfUnit_range p
  have hU := two_mul_halfUnit p
  have hpos : (0 : Int) < 2 ^ dropBits p := by omega
  obtain ⟨hqlo, hqhi⟩ := (Int.ediv_eq_iff_of_pos hpos).mp (rfl : n.mi / 2 ^ dropBits p = _)
  have hfloor : (n.mi + roundBias p n.mi) / 2 ^ dropBits p = q' := (add_roundBias_ediv p n.mi).trans hq.symm
  obtain ⟨hlo, hhi⟩ := (Int.ediv_eq_iff_of_pos hpos).mp hfloor
  refine ⟨by omega, by omega, ?_, ?_, fun htie => ?_⟩
  · rw [← hc]
    exact fpClear_fpRound_of_ne_zero p hx hn (congrArg (· * 2 ^ dropBits p) hfloor)
  · have hnear : |n.mi - q' * 2 ^ dropBits p| ≤ halfUnit p := by
      have hbias := roundBias_cases p n.mi
      exact abs_le.mpr ⟨by omega, by omega⟩
    omega
  · rw [htie, if_pos le_rfl, if_neg (lt_irrefl _)] at hq
    split at hq <;> subst hq
    · rw [abs_of_nonneg ‹_›, add_one_mul]
      exact lt_of_lt_of_le (by omega) (le_abs_self _)
    · rw [abs_of_neg (not_le.mp ‹_›)]
      exact lt_of_lt_of_le (by omega) (neg_le_abs _)

/-! ## NORM and RND -/

/-- Settles O12: A is driven, so its read does not stop, and neither function updates O. -/
theorem normAndRndDriveY : Obligations.NormAndRndDriveY := by
  intro s p xe a ha
  rw [exec, exec, execNorm, execRnd, withA_of_driven _ ha, withA_of_driven _ ha]
  exact ⟨rfl, rfl⟩

/-- Clearing reads of a value only its exponent and its retained field (40_codec.md R67). -/
theorem fpClear_congr {p : Prec} {x y : Working} (he : x.e = y.e)
    (hm : asr x.mi (dropBits p) = asr y.mi (dropBits p)) : fpClear p x = fpClear p y := by
  rw [fpClear, fpClear, he, hm]

/-- A second round and clear changes nothing: the bits it adds stay below the retained field
(41_normalize_round.md R84). -/
theorem fpClear_fpRound_idem (p : Prec) (x : Working) :
    fpClear p (fpRound p (fpClear p (fpRound p x))) = fpClear p (fpRound p x) := by
  rcases fpRound_zero_or_normalized p x with hz | hn
  · rw [hz]; cases p <;> rfl
  · obtain ⟨-, he, hm⟩ := fpRound_fpClear p hn
    exact fpClear_congr he hm

/-- Settles O41: RND drives Y alone, and its Y is a fixed point of round and clear. -/
theorem rndTwiceIsRndOnce : Obligations.RndTwiceIsRndOnce := by
  intro p xe xe' s t h
  rw [exec, execRnd] at h
  obtain ⟨a, -, h⟩ := withA_next h
  have hy : t.y = some (fpClear p (fpRound p a)) := by rw [completeValue_next h, drive_y]
  obtain ⟨-, hrnd⟩ := normAndRndDriveY { t with a := t.y } p xe' _ hy
  exact ⟨_, hrnd, by rw [fpClear_fpRound_idem, hy]⟩

end Sys2Proof.Machine
end

section
/-! The adder, the subtracter and the complementer (42_add_sub.md): an aligned sum and its overflow test, add in each of
its cases, the complement, and the instructions that finish with what these yield. -/

namespace Sys2Proof.Machine

/-! ## The finishing functions of A, and of A and B -/

section
variable {p : Prec} {xe : Bool} {s : State} {a b : Working} {v : Bool}

/-- Where a finishing function of A alone goes on (10_state.md R31). -/
theorem withA_finish_of_driven (f : Working → Working) (ha : s.a = some a) (ho : s.o = .written v) :
    withA s (fun a => finish p xe s (f a)) =
      .next (drive s (.written (v || raisesO (fpPack p xe (f a)).st)) (some (f a))
        (some (fpPack p xe (f a)).words) (fpPack p xe (f a)).st) := by
  rw [withA_of_driven _ ha, finish_of_written _ ho]

/-- Where a finishing function of A and B goes on (10_state.md R31). -/
theorem withA_withB_finish_of_driven (f : Working → Working → Working) (ha : s.a = some a) (hb : s.b = some b)
    (ho : s.o = .written v) :
    withA s (fun a => withB s fun b => finish p xe s (f a b)) =
      .next (drive s (.written (v || raisesO (fpPack p xe (f a b)).st)) (some (f a b))
        (some (fpPack p xe (f a b)).words) (fpPack p xe (f a b)).st) := by
  rw [withA_of_driven _ ha, withB_of_driven _ hb, finish_of_written _ ho]

end

/-- Settles O13: ADD and SUB are finishing functions of A and B. -/
theorem addAndSubDriveTheirResult : Obligations.AddAndSubDriveTheirResult := fun _ p _ _ _ _ ha hb ho =>
  ⟨withA_withB_finish_of_driven (fpAdd p) ha hb ho,
    withA_withB_finish_of_driven (fun a b => fpAdd p a (fpCmpl b)) ha hb ho⟩

/-- Settles O15: CMPL and TRNC are finishing functions of A alone. -/
theorem cmplAndTrncDriveTheirResult : Obligations.CmplAndTrncDriveTheirResult := fun _ _ _ _ _ ha ho =>
  ⟨withA_finish_of_driven fpCmpl ha ho, withA_finish_of_driven fpTrunc ha ho⟩

/-- Settles O45: both transactions finish with the same sum. -/
theorem subIsAddOfTheComplement : Obligations.SubIsAddOfTheComplement := by
  intro p xe s a b v ha hb ho
  obtain ⟨-, hsub⟩ := addAndSubDriveTheirResult s p xe a b v ha hb ho
  obtain ⟨hadd, -⟩ := addAndSubDriveTheirResult { s with b := some (fpCmpl b) } p xe a (fpCmpl b) v ha rfl ho
  exact ⟨_, _, hsub, hadd, rfl, rfl, rfl, rfl⟩

/-! ## The sum of aligned mantissas -/

section
variable {ma mb : Int}

/-- A sum in the 64-bit range stands at the common exponent (42_add_sub.md R91). -/
theorem addAligned_of_fits (e : Int) (h : -2 ^ 63 ≤ ma + mb ∧ ma + mb < 2 ^ 63) :
    (addAligned ma mb e).mi = ma + mb ∧ (addAligned ma mb e).e = e := by
  rw [addAligned, if_neg (by omega)]
  exact ⟨narrow_mi _ _ h.1 h.2, rfl⟩

/-- A sum outside the 64-bit range is halved; half the sum of two mantissas fits (42_add_sub.md R91, R92). -/
theorem addAligned_of_overflow (e : Int) (ha : -2 ^ 63 ≤ ma ∧ ma < 2 ^ 63) (hb : -2 ^ 63 ≤ mb ∧ mb < 2 ^ 63)
    (h : ¬ (-2 ^ 63 ≤ ma + mb ∧ ma + mb < 2 ^ 63)) :
    (addAligned ma mb e).mi = (ma + mb) / 2 ∧ (addAligned ma mb e).e = e + 1 := by
  rw [addAligned, if_pos (by omega)]
  exact ⟨narrow_mi _ _ (by rw [fdiv]; omega) (by rw [fdiv]; omega), rfl⟩

end

theorem addAligned_comm (ma mb e : Int) : addAligned ma mb e = addAligned mb ma e := by
  rw [addAligned, addAligned, Int.add_comm]

/-- The sign bit of the 64-bit pattern of an integer (00_scope.md R13). -/
theorem msb_ofInt_64 (s : Int) : (BitVec.ofInt 64 s).msb = decide (2 ^ 63 ≤ s % 2 ^ 64) := by
  rw [BitVec.msb_eq_decide, BitVec.toNat_ofInt, decide_eq_decide]
  omega

/-- The source's sign test on the 64-bit sum of two mantissas says that the exact sum does not fit (42_add_sub.md R92). -/
theorem sign_test_iff {ma mb : Int} (ha : -2 ^ 63 ≤ ma ∧ ma < 2 ^ 63) (hb : -2 ^ 63 ≤ mb ∧ mb < 2 ^ 63) :
    decide (ma < 0) = decide (mb < 0) ∧ (BitVec.ofInt 64 (ma + mb)).msb ≠ decide (ma < 0) ↔
      ¬ (-2 ^ 63 ≤ ma + mb ∧ ma + mb < 2 ^ 63) := by
  rw [msb_ofInt_64, ne_eq, decide_eq_decide, decide_eq_decide]
  omega

/-- Settles O43: by whether the exact sum fits, which is what the sign test asks. -/
theorem addOverflowIsTheSignTest : Obligations.AddOverflowIsTheSignTest := by
  refine ⟨fun ma mb e ha ha' hb hb' => ?_, asr_neg_iff⟩
  rw [sign_test_iff ⟨ha, ha'⟩ ⟨hb, hb'⟩, ne_eq (decide (ma < 0)), decide_eq_decide]
  by_cases hfit : -2 ^ 63 ≤ ma + mb ∧ ma + mb < 2 ^ 63
  · obtain ⟨hm, he⟩ := addAligned_of_fits e hfit
    exact ⟨by omega, by omega, fun _ => ⟨hm, he⟩, fun _ => he⟩
  · obtain ⟨hm, he⟩ := addAligned_of_overflow e ⟨ha, ha'⟩ ⟨hb, hb'⟩ hfit
    exact ⟨by omega, fun _ => hm, fun h => absurd he h, by omega⟩

/-! ## The cases of add -/

section
variable (p : Prec) {a b : Working}

theorem fpAdd_of_left_zero (ha : a.mi = 0) : fpAdd p a b = b := if_pos ((mi_eq_zero_iff a).mp ha)

theorem fpAdd_of_right_zero (ha : a.mi ≠ 0) (hb : b.mi = 0) : fpAdd p a b = a := by
  rw [fpAdd, if_neg (mt (mi_eq_zero_iff a).mpr ha), if_pos ((mi_eq_zero_iff b).mp hb)]

section
variable (ha : a.mi ≠ 0) (hb : b.mi ≠ 0)
include ha hb

/-- add past its zero identities (42_add_sub.md R91). -/
theorem fpAdd_of_ne_zero : fpAdd p a b =
    if (keptBits p : Int) + 1 < a.e - b.e then a
    else if a.e - b.e < -((keptBits p : Int) + 1) then b
    else if 0 ≤ a.e - b.e then addAligned a.mi (asr b.mi (a.e - b.e).toNat) a.e
    else addAligned (asr a.mi (-(a.e - b.e)).toNat) b.mi b.e := by
  rw [fpAdd, if_neg (mt (mi_eq_zero_iff a).mpr ha), if_neg (mt (mi_eq_zero_iff b).mpr hb)]

theorem fpAdd_of_far_left (h : (keptBits p : Int) + 1 < a.e - b.e) : fpAdd p a b = a := by
  rw [fpAdd_of_ne_zero p ha hb, if_pos h]

theorem fpAdd_of_far_right (h : (keptBits p : Int) + 1 < b.e - a.e) : fpAdd p a b = b := by
  rw [fpAdd_of_ne_zero p ha hb, if_neg (by omega), if_pos (by omega)]

/-- Within the alignment limit both operands are shifted to the larger exponent, one of them by nothing
(42_add_sub.md R91). -/
theorem fpAdd_of_near (h : a.e - b.e ≤ (keptBits p : Int) + 1) (h' : b.e - a.e ≤ (keptBits p : Int) + 1) :
    fpAdd p a b =
      addAligned (asr a.mi (max a.e b.e - a.e).toNat) (asr b.mi (max a.e b.e - b.e).toNat) (max a.e b.e) := by
  rw [fpAdd_of_ne_zero p ha hb, if_neg (by omega), if_neg (by omega)]
  rcases le_or_gt b.e a.e with hle | hlt
  · rw [if_pos (by omega), max_eq_left hle, Int.sub_self, Int.toNat_zero, asr_zero]
  · rw [if_neg (by omega), max_eq_right hlt.le, Int.sub_self, Int.toNat_zero, asr_zero, Int.neg_sub]

end

end

/-- Settles O42: one clause for each case of add. -/
theorem addAlignsAndSums : Obligations.AddAlignsAndSums := by
  intro p a b
  refine ⟨fpAdd_of_left_zero p, fpAdd_of_right_zero p, fpAdd_of_far_left p, fpAdd_of_far_right p, ?_⟩
  rintro ha hb h h' _ _ rfl rfl
  have hra := mi_range a
  have hrb := mi_range b
  rw [fpAdd_of_near p ha hb h h', ← asr_eq, ← asr_eq]
  exact ⟨addAligned_of_fits _, addAligned_of_overflow _ (asr_range _ _ hra.1 hra.2) (asr_range _ _ hrb.1 hrb.2)⟩

/-- With both mantissas non-zero the cases of add are symmetric in the operands (42_add_sub.md R94). -/
theorem fpAdd_comm_of_ne_zero (p : Prec) {a b : Working} (ha : a.mi ≠ 0) (hb : b.mi ≠ 0) :
    fpAdd p a b = fpAdd p b a := by
  by_cases hl : (keptBits p : Int) + 1 < a.e - b.e
  · rw [fpAdd_of_far_left p ha hb hl, fpAdd_of_far_right p hb ha hl]
  by_cases hr : (keptBits p : Int) + 1 < b.e - a.e
  · rw [fpAdd_of_far_right p ha hb hr, fpAdd_of_far_left p hb ha hr]
  · rw [fpAdd_of_near p ha hb (not_lt.mp hl) (not_lt.mp hr), fpAdd_of_near p hb ha (not_lt.mp hr) (not_lt.mp hl),
      addAligned_comm, max_comm]

/-- Settles O44: a zero operand is the identity on either side, and two non-zero operands commute. -/
theorem addZeroIdentityAndCommutativity : Obligations.AddZeroIdentityAndCommutativity := by
  refine ⟨fun p x e => fpAdd_of_left_zero p rfl, fun p x e hx => fpAdd_of_right_zero p hx rfl, fun p a b h => ?_⟩
  by_cases ha : a.mi = 0
  · rw [fpAdd_of_left_zero p ha, fpAdd_of_right_zero p (h.resolve_left (not_not.mpr ha)) ha]
  by_cases hb : b.mi = 0
  · rw [fpAdd_of_right_zero p ha hb, fpAdd_of_left_zero p hb]
  · exact fpAdd_comm_of_ne_zero p ha hb

/-! ## The complement -/

section
variable {x : Working}

/-- 2^63 does not fit, so the complement of −2^63 is half of it, one exponent up (42_add_sub.md R99). -/
theorem fpCmpl_of_most_negative (h : x.mi = -2 ^ 63) : (fpCmpl x).mi = 2 ^ 62 ∧ (fpCmpl x).e = x.e + 1 := by
  rw [fpCmpl, if_pos h]
  exact ⟨narrow_mi _ _ (by decide) (by decide), rfl⟩

theorem fpCmpl_of_ne_most_negative (h : x.mi ≠ -2 ^ 63) : (fpCmpl x).mi = -x.mi ∧ (fpCmpl x).e = x.e := by
  have hr := mi_range x
  rw [fpCmpl, if_neg h]
  exact ⟨narrow_mi _ _ (by omega) (by omega), rfl⟩

end

/-- Settles O47: the exponent change is one where the mantissa was halved, and none elsewhere. -/
theorem complementNegatesExactly : Obligations.ComplementNegatesExactly := by
  refine fun x => ⟨fpCmpl_of_most_negative, fpCmpl_of_ne_most_negative, ?_⟩
  by_cases h : x.mi = -2 ^ 63
  · obtain ⟨hm, he⟩ := fpCmpl_of_most_negative h
    rw [hm, he, h, add_sub_cancel_left]
    rfl
  · obtain ⟨hm, he⟩ := fpCmpl_of_ne_most_negative h
    rw [hm, he, Int.sub_self, Int.toNat_zero, pow_zero, mul_one]

/-- x − x has a zero mantissa: the operands cancel once aligned, −2^63 being shifted right by the one bit its complement
is (42_add_sub.md R97). -/
theorem fpAdd_fpCmpl_self_mi (p : Prec) (x : Working) : (fpAdd p x (fpCmpl x)).mi = 0 := by
  by_cases h0 : x.mi = 0
  · rw [fpAdd_of_left_zero p h0]
    have hc := fpCmpl_of_ne_most_negative (x := x)
    omega
  by_cases h : x.mi = -2 ^ 63
  · obtain ⟨hm, he⟩ := fpCmpl_of_most_negative h
    rw [fpAdd_of_near p h0 (by omega) (by omega) (by omega), he, max_eq_right (by omega), Int.sub_self,
      add_sub_cancel_left, hm, h]
    rfl
  · obtain ⟨hm, he⟩ := fpCmpl_of_ne_most_negative h
    rw [fpAdd_of_near p h0 (by omega) (by omega) (by omega), he, max_self, Int.sub_self, Int.toNat_zero, asr_zero,
      asr_zero, hm]
    obtain ⟨hsum, -⟩ := addAligned_of_fits (ma := x.mi) (mb := -x.mi) x.e (by omega)
    omega

/-- Settles O46: the difference has a zero mantissa, and that packs to the zero words and raises nothing. -/
theorem subtractingAnOperandFromItselfGivesZero : Obligations.SubtractingAnOperandFromItselfGivesZero := by
  intro p xe s x v ha hb ho
  have hy := fpAdd_fpCmpl_self_mi p x
  obtain ⟨-, hsub⟩ := addAndSubDriveTheirResult s p xe x x v ha hb ho
  refine ⟨_, _, hsub, rfl, hy, ?_⟩
  rw [fpPack_of_zero_operand p xe ((mi_eq_zero_iff _).mp hy)]
  exact ⟨rfl, rfl, congrArg _ (Bool.or_false v)⟩

end Sys2Proof.Machine
end

section
/-! The multiplier (43_multiply.md): the four half-width products against the whole one, multiply in its two cases, and
the instructions that finish with a product or a quotient. -/

namespace Sys2Proof.Machine

/-- Settles O14: MPY and DIV are finishing functions of A and B. -/
theorem mpyAndDivDriveTheirResult : Obligations.MpyAndDivDriveTheirResult := fun _ p xe _ _ _ ha hb ho =>
  ⟨withA_withB_finish_of_driven fpMul ha hb ho, withA_withB_finish_of_driven (fpDiv p xe) ha hb ho⟩

/-! ## The split product -/

/-- Long multiplication in 32-bit halves: the four half-width products at their places. -/
theorem mul_eq_half_products (a b : Nat) :
    a * b = a / 2 ^ 32 * (b / 2 ^ 32) * 2 ^ 64 + (a / 2 ^ 32 * (b % 2 ^ 32) + a % 2 ^ 32 * (b / 2 ^ 32)) * 2 ^ 32
      + a % 2 ^ 32 * (b % 2 ^ 32) := by
  conv_lhs => rw [← Nat.div_add_mod a (2 ^ 32), ← Nat.div_add_mod b (2 ^ 32)]
  ring

/-- The carry term makes the split exact, whatever the operands (43_multiply.md R107). -/
theorem splitProduct_eq (a b : Nat) : splitProduct a b = a * b / 2 ^ 64 := by
  rw [mul_eq_half_products a b, splitProduct]
  omega

/-- The product of two low halves has a high half below 2^32, like the two residues it is added to. -/
theorem low_product_div_lt (a b : Nat) : a % 2 ^ 32 * (b % 2 ^ 32) / 2 ^ 32 < 2 ^ 32 :=
  Nat.div_lt_of_lt_mul (Nat.mul_lt_mul'' (Nat.mod_lt a (by decide)) (Nat.mod_lt b (by decide)))

/-- Settles O48: the split is exact, and its carry is that of three summands below 2^32. -/
theorem splitProductIsTheExactFloor : Obligations.SplitProductIsTheExactFloor := by
  intro a b _ _ _ _
  have hll := low_product_div_lt a b
  exact ⟨splitProduct_eq a b, by omega⟩

/-! ## The cases of multiply -/

theorem abs_mi_le (x : Working) : |x.mi| ≤ 2 ^ 63 := by
  obtain ⟨hlo, hhi⟩ := mi_range x
  exact abs_le.mpr ⟨hlo, hhi.le⟩

/-- A·B ≤ 2^126, so the truncated product is at most 2^62 (43_multiply.md R106, "The mask"). -/
theorem product_magnitude_le (a b : Working) : |a.mi| * |b.mi| / 2 ^ 64 ≤ 2 ^ 62 :=
  Int.ediv_le_ediv (c := 2 ^ 64) (by decide)
    (mul_le_mul (abs_mi_le a) (abs_mi_le b) (abs_nonneg b.mi) (by decide))

/-- A magnitude with a sign put to it lies between the bounds of the magnitude. -/
theorem ite_neg_range {q n : Int} (h0 : 0 ≤ q) (h : q ≤ n) (negative : Bool) :
    -n ≤ (if negative then -q else q) ∧ (if negative then -q else q) ≤ n := by
  cases negative with
  | false => exact ⟨by omega, h⟩
  | true => exact ⟨neg_le_neg h, by omega⟩

section
variable {a b : Working}

theorem fpMul_of_zero (h : a.mi = 0 ∨ b.mi = 0) : fpMul a b = Working.zero :=
  if_pos (h.imp (mi_eq_zero_iff a).mp (mi_eq_zero_iff b).mp)

/-- multiply past its zero test, with the split product read as the exact floor (43_multiply.md R106, R107). -/
theorem fpMul_of_ne_zero (ha : a.mi ≠ 0) (hb : b.mi ≠ 0) :
    fpMul a b =
      narrow (if xor (decide (a.mi < 0)) (decide (b.mi < 0)) then -(|a.mi| * |b.mi| / 2 ^ 64)
        else |a.mi| * |b.mi| / 2 ^ 64) (a.e + b.e + 1) := by
  have hp : (splitProduct a.mi.natAbs b.mi.natAbs : Int) = |a.mi| * |b.mi| / 2 ^ 64 := by
    rw [splitProduct_eq]
    push_cast
    rfl
  rw [fpMul, if_neg (not_or_intro (mt (mi_eq_zero_iff a).mpr ha) (mt (mi_eq_zero_iff b).mpr hb))]
  simp only [hp]

end

/-- Settles O49: the signed product lies within ±2^62, so the mantissa holds it exactly. -/
theorem multiplyTruncatesTheSignedProduct : Obligations.MultiplyTruncatesTheSignedProduct := by
  refine fun a b => ⟨fpMul_of_zero, fun ha hb => ?_⟩
  have hmag : 0 ≤ |a.mi| * |b.mi| / 2 ^ 64 := by positivity
  have hr := ite_neg_range hmag (product_magnitude_le a b) (xor (decide (a.mi < 0)) (decide (b.mi < 0)))
  rw [fpMul_of_ne_zero ha hb, narrow_mi _ _ (by omega) (by omega)]
  exact ⟨rfl, rfl, hr⟩

end Sys2Proof.Machine
end

section
/-! The divider (44_divide.md): what the correction loop leaves behind, divstep and its merge against the exact floor,
divide in its three cases, and the DIV of a zero divisor. -/

namespace Sys2Proof.Machine

/-! ## The correction loop -/

/-- The corrections that lift a remainder of at least −n·B to 0 leave the floor and the remainder of its division by B,
and the loop makes no correction more (44_divide.md R118). -/
theorem divCorrect_eq {n : Nat} {r b : Int} (q : Int) (hlo : -(n * b) ≤ r) (hhi : r < b) :
    divCorrect n q r b = (q + r / b, r % b) := by
  have hdone {q r : Int} (h0 : 0 ≤ r) (h : r < b) : (q, r) = (q + r / b, r % b) := by
    rw [Int.ediv_eq_zero_of_lt h0 h, Int.emod_eq_of_lt h0 h, add_zero]
  induction n generalizing q r with
  | zero => exact hdone (by simpa using hlo) hhi
  | succ n ih =>
    rw [divCorrect]
    split
    · next hneg =>
      push_cast at hlo
      have hb : b ≠ 0 := by rintro rfl; omega
      rw [ih (q - 1) (by linarith) (by omega), Int.add_ediv_of_dvd_right (dvd_refl b), Int.ediv_self hb,
        Int.add_emod_right]
      congr 1
      ring
    · next h0 => exact hdone (not_lt.mp h0) hhi

/-! ## divstep -/

/-- The quotient before correction: the dividend by the divisor's high half (44_divide.md R118). -/
def coarseQuotient (a b : Int) : Int := a / (b / 2 ^ 32)

/-- The remainder before correction: the coarse remainder less the correction term q·Bl (44_divide.md R118). -/
def coarseRemainder (a b : Int) : Int :=
  (a - coarseQuotient a b * (b / 2 ^ 32)) * 2 ^ 32 - coarseQuotient a b * (b % 2 ^ 32)

theorem divStep_eq_divCorrect (a b : Int) :
    divStep a b = divCorrect 8 (coarseQuotient a b) (coarseRemainder a b) b := rfl

section
variable {a b : Int}

/-- R = A·2^32 − q·B for the coarse quotient q (44_divide.md R118). -/
theorem coarseRemainder_eq (a b : Int) : coarseRemainder a b = a * 2 ^ 32 - coarseQuotient a b * b := by
  have hb := Int.ediv_mul_add_emod b (2 ^ 32)
  unfold coarseRemainder
  linear_combination (-(coarseQuotient a b)) * hb

/-- The coarse quotient is not too small: r < Bh, so that R is below Bh·2^32 ≤ B. -/
theorem coarseRemainder_lt (ha : 0 ≤ a) (hb : 2 ^ 62 ≤ b) : coarseRemainder a b < b := by
  have hq : 0 ≤ coarseQuotient a b := Int.ediv_nonneg ha (by omega)
  have hr : a - coarseQuotient a b * (b / 2 ^ 32) < b / 2 ^ 32 := by
    have h := Int.emod_lt_of_pos a (show 0 < b / 2 ^ 32 by omega)
    rwa [Int.emod_def, mul_comm (b / 2 ^ 32)] at h
  have hterm : 0 ≤ coarseQuotient a b * (b % 2 ^ 32) := mul_nonneg hq (by omega)
  unfold coarseRemainder
  omega

/-- The coarse quotient is at most 4·A / B too large: q·Bl ≤ q·2^32 ≤ 4·q·Bh ≤ 4·A, since 2^30 ≤ Bh
(44_divide.md R117, R118). -/
theorem coarseRemainder_ge (ha : 0 ≤ a) (hb : 2 ^ 62 ≤ b) : -(4 * a) ≤ coarseRemainder a b := by
  have hr : coarseQuotient a b * (b / 2 ^ 32) ≤ a := Int.ediv_mul_le a (by omega)
  have hterm : coarseQuotient a b * (b % 2 ^ 32) ≤ coarseQuotient a b * (4 * (b / 2 ^ 32)) :=
    mul_le_mul_of_nonneg_left (by omega) (Int.ediv_nonneg ha (by omega))
  unfold coarseRemainder
  linarith

/-- Any n corrections with 4·A ≤ n·B make the coarse quotient exact. -/
theorem divCorrect_coarse (ha : 0 ≤ a) (hb : 2 ^ 62 ≤ b) {n : Nat} (hn : 4 * a ≤ n * b) :
    divCorrect n (coarseQuotient a b) (coarseRemainder a b) b = (a * 2 ^ 32 / b, a * 2 ^ 32 % b) := by
  have hlo : -((n : Int) * b) ≤ coarseRemainder a b := (neg_le_neg hn).trans (coarseRemainder_ge ha hb)
  rw [divCorrect_eq _ hlo (coarseRemainder_lt ha hb), coarseRemainder_eq, Int.sub_mul_ediv_right _ _ (by omega),
    add_sub_cancel, Int.sub_mul_emod_self_right]

theorem divCorrect_coarse_add (ha : 0 ≤ a) (hb : 2 ^ 62 ≤ b) {c : Nat} (hc : 4 * a ≤ c * b) (n : Nat) :
    divCorrect (c + n) (coarseQuotient a b) (coarseRemainder a b) b =
      divCorrect c (coarseQuotient a b) (coarseRemainder a b) b := by
  have hcn : 4 * a ≤ (c + n : Nat) * b := hc.trans (mul_le_mul_of_nonneg_right (by simp) (by omega))
  rw [divCorrect_coarse ha hb hcn, divCorrect_coarse ha hb hc]

theorem divStep_eq (ha : 0 ≤ a) (ha' : a ≤ 2 ^ 63) (hb : 2 ^ 62 ≤ b) :
    divStep a b = (a * 2 ^ 32 / b, a * 2 ^ 32 % b) :=
  (divStep_eq_divCorrect a b).trans (divCorrect_coarse ha hb (by omega))

/-! ## divide-and-correct -/

/-- Long division in two digits of base c: the remainder's quotient is the second digit. -/
theorem ediv_mul_add_emod_mul_ediv (x c : Int) (hb : b ≠ 0) : x / b * c + x % b * c / b = x * c / b := by
  conv_rhs => rw [← Int.ediv_mul_add_emod x b, add_mul, mul_right_comm, Int.add_comm, Int.add_mul_ediv_right _ _ hb]
  exact Int.add_comm _ _

theorem divideAndCorrect_eq (ha : 0 ≤ a) (ha' : a ≤ 2 ^ 63) (hb : 2 ^ 62 ≤ b) (hb' : b ≤ 2 ^ 63) :
    divideAndCorrect a b = a * 2 ^ 62 / b := by
  have hr0 := Int.emod_nonneg (a * 2 ^ 32) (show b ≠ 0 by omega)
  have hrb := Int.emod_lt_of_pos (a * 2 ^ 32) (show 0 < b by omega)
  rw [divideAndCorrect, divStep_eq ha ha' hb, divStep_eq hr0 (by omega) hb]
  calc (a * 2 ^ 32 / b * 2 ^ 32 + a * 2 ^ 32 % b * 2 ^ 32 / b) / 4
      = a * 2 ^ 32 * 2 ^ 32 / b / 4 := by rw [ediv_mul_add_emod_mul_ediv _ _ (by omega)]
    _ = a * 2 ^ 62 * 4 / (b * 4) := by rw [Int.ediv_ediv_of_nonneg (by omega)]; ring_nf
    _ = a * 2 ^ 62 / b := Int.mul_ediv_mul_of_pos_left _ _ (by decide)

end

/-- Settles O50: 4·A ≤ 8·B for a dividend up to 2^63, and 4·A ≤ 4·B for one below B. -/
theorem divideAndCorrectIsTheExactFloor : Obligations.DivideAndCorrectIsTheExactFloor := by
  intro a b ha hb hb'
  refine ⟨fun ha' => divStep_eq ha ha' hb, fun _ ha' => divideAndCorrect_eq ha ha' hb hb', ?_⟩
  rintro _ r rfl hr
  obtain rfl : r = coarseRemainder a b := hr
  exact ⟨fun ha' => divCorrect_coarse_add ha hb (by omega), fun ha' => divCorrect_coarse_add ha hb (by omega)⟩

/-! ## The sentinels as mantissas -/

theorem sentinel_range (p : Prec) (negative : Bool) : -2 ^ 63 ≤ sentinel p negative ∧ sentinel p negative < 2 ^ 63 := by
  obtain ⟨x, hx, -⟩ := sentinel_normalized p negative
  exact hx ▸ mi_range x

theorem narrow_sentinel_mi (p : Prec) (negative : Bool) (e : Int) :
    (narrow (sentinel p negative) e).mi = sentinel p negative :=
  narrow_mi _ e (sentinel_range p negative).1 (sentinel_range p negative).2

theorem narrow_sentinel_normalized (p : Prec) (negative : Bool) (e : Int) :
    normalized (narrow (sentinel p negative) e) := by
  obtain ⟨x, hx, hn⟩ := sentinel_normalized p negative
  rw [normalized_iff] at hn ⊢
  rwa [narrow_sentinel_mi, ← hx]

theorem sentinel_neg_iff (p : Prec) (negative : Bool) : sentinel p negative < 0 ↔ negative = true := by
  cases p <;> cases negative <;> decide

/-- The rounding constant carries neither sentinel out of the normalized range: the discarded bits of the positive one
are zero, and the negative one is the far end of its range. -/
theorem sentinel_add_halfUnit (p : Prec) (negative : Bool) :
    sentinel p negative + halfUnit p < 2 ^ 63 ∧
      (0 ≤ sentinel p negative ∨ sentinel p negative + (halfUnit p - 1) < -2 ^ 62) := by
  cases p <;> cases negative <;> decide

/-! ## The cases of divide -/

/-- The quotient magnitude: floor(|ma|·2^62 / |mb|) (44_divide.md R116, "Magnitude"). -/
def quotientMagnitude (na nb : Working) : Int := |na.mi| * 2 ^ 62 / |nb.mi|

/-- The quotient magnitude, negated when the signs differ (44_divide.md R116). -/
def signedQuotient (na nb : Working) : Int :=
  if xor (decide (na.mi < 0)) (decide (nb.mi < 0)) then -quotientMagnitude na nb else quotientMagnitude na nb

section
variable {na nb : Working}

theorem abs_mi_ge_of_normalized {x : Working} (hx : normalized x) : 2 ^ 62 ≤ |x.mi| := by
  have h := (normalized_iff x).mp hx
  exact le_abs.mpr (by omega)

/-- 2^61 = 2^62·2^62 / 2^63 and 2^63 = 2^63·2^62 / 2^62 bound the quotient (44_divide.md R116, log entry 10). -/
theorem quotientMagnitude_range (ha : normalized na) (hb : normalized nb) :
    2 ^ 61 ≤ quotientMagnitude na nb ∧ quotientMagnitude na nb ≤ 2 ^ 63 := by
  have hA := abs_mi_ge_of_normalized ha
  have hB := abs_mi_ge_of_normalized hb
  have hA' := abs_mi_le na
  have hB' := abs_mi_le nb
  unfold quotientMagnitude
  exact ⟨(Int.le_ediv_iff_mul_le (by omega)).mpr (by omega), Int.ediv_le_of_le_mul (by omega) (by omega)⟩

/-- The quotient reaches 2^63 only for −2^63 over 2^62, whose signs differ (44_divide.md R116, its range). -/
theorem quotientMagnitude_lt_of_same_sign (ha : normalized na) (hb : normalized nb) (h : na.mi < 0 ↔ nb.mi < 0) :
    quotientMagnitude na nb < 2 ^ 63 := by
  have hA := (normalized_iff na).mp ha
  have hB := (normalized_iff nb).mp hb
  have hA' := mi_range na
  have hlt : |na.mi| < 2 * |nb.mi| := by
    rcases lt_or_ge na.mi 0 with hna | hna
    · have hnb := h.mp hna
      rw [abs_of_neg hna, abs_of_neg hnb]
      omega
    · have hnb := not_lt.mp (mt h.mpr (not_lt.mpr hna))
      rw [abs_of_nonneg hna, abs_of_nonneg hnb]
      omega
  exact Int.ediv_lt_of_lt_mul (abs_pos.mpr (by omega)) (by omega)

/-- The quotient with its sign put to it fits the mantissa (44_divide.md R116). -/
theorem signedQuotient_range (ha : normalized na) (hb : normalized nb) :
    -2 ^ 63 ≤ signedQuotient na nb ∧ signedQuotient na nb < 2 ^ 63 := by
  have hr := quotientMagnitude_range ha hb
  refine ⟨(ite_neg_range (by omega) hr.2 _).1, ?_⟩
  unfold signedQuotient
  split
  · omega
  · next h => exact quotientMagnitude_lt_of_same_sign ha hb (by simpa using h)

end

section
variable (p : Prec) (xe : Bool) {a b : Working}

theorem fpDiv_of_zero_dividend (ha : a.mi = 0) : fpDiv p xe a b = Working.zero := if_pos ((mi_eq_zero_iff a).mp ha)

theorem fpDiv_of_zero_divisor (ha : a.mi ≠ 0) (hb : b.mi = 0) :
    fpDiv p xe a b = narrow (sentinel p (decide (a.mi < 0))) (eMax xe + 1) := by
  rw [fpDiv, if_neg (mt (mi_eq_zero_iff a).mpr ha), if_pos ((mi_eq_zero_iff b).mp hb)]

/-- divide past its two zero tests, with divide-and-correct read as the exact floor (44_divide.md R116, R118). -/
theorem fpDiv_of_ne_zero (ha : a.mi ≠ 0) (hb : b.mi ≠ 0) :
    fpDiv p xe a b =
      narrow (signedQuotient (fpNormalize a) (fpNormalize b)) ((fpNormalize a).e - (fpNormalize b).e + 1) := by
  have hq : divideAndCorrect (fpNormalize a).mi.natAbs (fpNormalize b).mi.natAbs =
      quotientMagnitude (fpNormalize a) (fpNormalize b) := by
    rw [Int.natCast_natAbs, Int.natCast_natAbs]
    exact divideAndCorrect_eq (abs_nonneg _) (abs_mi_le _) (abs_mi_ge_of_normalized (fpNormalize_normalized hb))
      (abs_mi_le _)
  rw [fpDiv, if_neg (mt (mi_eq_zero_iff a).mpr ha), if_neg (mt (mi_eq_zero_iff b).mpr hb)]
  simp only [hq, signedQuotient]

end

/-- Settles O51: one clause for each case of divide; the operands of the third are normalized, so its quotient fits. -/
theorem divideTruncatesTheSignedQuotient : Obligations.DivideTruncatesTheSignedQuotient := by
  refine fun p xe a b => ⟨fpDiv_of_zero_dividend p xe, fun ha hb => ?_, ?_⟩
  · rw [fpDiv_of_zero_divisor p xe ha hb]
    exact ⟨narrow_sentinel_mi p _ _, rfl⟩
  · rintro ha hb _ _ _ rfl rfl rfl
    have hna := fpNormalize_normalized ha
    have hnb := fpNormalize_normalized hb
    obtain ⟨hlo, hhi⟩ := signedQuotient_range hna hnb
    rw [fpDiv_of_ne_zero p xe ha hb]
    exact ⟨rfl, narrow_mi _ _ hlo hhi, quotientMagnitude_range hna hnb⟩

/-! ## DIV by zero -/

/-- Round keeps a sentinel's sign and exponent (44_divide.md R116, "Division by zero"). -/
theorem fpRound_sentinel (p : Prec) (negative : Bool) (e : Int) :
    (fpRound p (narrow (sentinel p negative) e)).mi ≠ 0 ∧
      decide ((fpRound p (narrow (sentinel p negative) e)).mi < 0) = negative ∧
      (fpRound p (narrow (sentinel p negative) e)).e = e := by
  have hn := narrow_sentinel_normalized p negative e
  obtain ⟨⟨hr, -⟩, hsign, -, -, he⟩ := roundKeepsSignAndBoundsTheExponent p (narrow (sentinel p negative) e) _ _
    (mt (mi_eq_zero_iff _).mp hn.1) (fpNormalize_of_normalized hn) rfl
  obtain ⟨hhi, hlo⟩ := sentinel_add_halfUnit p negative
  rw [narrow_sentinel_mi] at hsign he
  refine ⟨mt (mi_eq_zero_iff _).mp hr, ?_, he hhi hlo⟩
  rw [Bool.eq_iff_iff, decide_eq_true_iff, hsign, sentinel_neg_iff]

/-- A sentinel one above E_MAX overflows, and packs to the packed sentinel of its sign (44_divide.md R116, R119). -/
theorem fpPack_sentinel_above_eMax (p : Prec) (xe negative : Bool) :
    (fpPack p xe (narrow (sentinel p negative) (eMax xe + 1))).st = .overflow ∧
      (xe = false →
        (fpPack p xe (narrow (sentinel p negative) (eMax xe + 1))).words = packedSentinel p negative) ∧
      (xe = true →
        mantField (fpPack p xe (narrow (sentinel p negative) (eMax xe + 1))).words =
          mantField (packedSentinel p negative) ∧
        expField (fpPack p xe (narrow (sentinel p negative) (eMax xe + 1))).words = Config.xePack 511) := by
  obtain ⟨h0, hsign, he⟩ := fpRound_sentinel p negative (eMax xe + 1)
  have hover : eMax xe < (fpRound p (narrow (sentinel p negative) (eMax xe + 1))).e := by omega
  obtain ⟨-, -, htable⟩ := packedSentinelsAreTheTable
  have hwords := htable p xe _ h0 hover
  rw [hsign] at hwords
  exact ⟨by rw [fpPack_of_overflow h0 hover], hwords⟩

/-- Settles O52: DIV packs the sentinel one above E_MAX that divide gives, and a zero dividend to zero words. -/
theorem divisionByZeroGivesTheDividendsSentinel : Obligations.DivisionByZeroGivesTheDividendsSentinel := by
  intro p xe s a b v ha hb ho
  obtain ⟨-, hexec⟩ := mpyAndDivDriveTheirResult s p xe a b v ha hb ho
  refine ⟨fun ha0 hb0 => ⟨_, (fpPack p xe (fpDiv p xe a b)).words, hexec, ?_⟩, fun ha0 => ⟨_, hexec, ?_⟩⟩
  · rw [fpDiv_of_zero_divisor p xe ha0 hb0]
    obtain ⟨hst, hwords⟩ := fpPack_sentinel_above_eMax p xe (decide (a.mi < 0))
    rw [hst]
    exact ⟨rfl, congrArg _ (Bool.or_true v), rfl, hwords⟩
  · rw [fpDiv_of_zero_dividend p xe ha0, fpPack_of_zero_operand p xe rfl]
    exact ⟨rfl, rfl, rfl, congrArg _ (Bool.or_false v)⟩

end Sys2Proof.Machine
end

section
/-! Truncate (45_truncate.md): masking with one unit given back is the quotient rounded toward zero, truncate in its three
cases, the input its exponent test misjudges, and a second truncation. -/

namespace Sys2Proof.Machine

/-! ## The mask of the fractional bits -/

section
variable {m u : Int}

/-- Masking off the part below a unit rounds toward −∞; the unit given back to a negative value that lost bits makes it
round toward zero (45_truncate.md R128). -/
theorem mask_eq_tdiv_mul (hu : 0 < u) :
    (if m < 0 ∧ m % u ≠ 0 then m - m % u + u else m - m % u) = m.tdiv u * u := by
  have hfloor := Int.ediv_mul_add_emod m u
  rw [Int.tdiv_eq_ediv, Int.sign_eq_one_of_pos hu]
  by_cases hback : m < 0 ∧ m % u ≠ 0
  · rw [if_pos hback, if_neg (by rw [Int.dvd_iff_emod_eq_zero]; omega), add_one_mul]
    omega
  · rw [if_neg hback, if_pos (by rw [Int.dvd_iff_emod_eq_zero]; omega), add_zero]
    omega

/-- Truncation by a unit of at most 2^62 stays in the 64-bit range (45_truncate.md R128). -/
theorem tdiv_mul_range (hu : 0 < u) (hu' : u ≤ 2 ^ 62) (hm : -2 ^ 63 ≤ m ∧ m < 2 ^ 63) :
    -2 ^ 63 ≤ m.tdiv u * u ∧ m.tdiv u * u < 2 ^ 63 := by
  have hlow := Int.emod_nonneg m hu.ne'
  have hlow' := Int.emod_lt_of_pos m hu
  rw [← mask_eq_tdiv_mul hu]
  split <;> omega

end

/-! ## The cases of truncate -/

/-- One unit of the integer part, on the mantissa (45_truncate.md R128, "one unit"). -/
def truncUnit (x : Working) : Int := 2 ^ (63 - x.e).toNat

section
variable {x : Working}

theorem fpTrunc_of_le_zero (h : x.e ≤ 0) : fpTrunc x = Working.zero := if_pos h

theorem fpTrunc_of_ge (h : 63 ≤ x.e) : fpTrunc x = x := by rw [fpTrunc, if_neg (by omega), if_pos h]

theorem truncUnit_pos : 0 < truncUnit x := by unfold truncUnit; positivity

theorem truncUnit_le (h : 0 < x.e) : truncUnit x ≤ 2 ^ 62 := pow_le_pow_right₀ (by decide) (by omega)

/-- Where the mantissa has fractional bits and integer ones, truncate keeps the exponent and rounds the mantissa toward
zero to whole units (45_truncate.md R128). -/
theorem fpTrunc_of_between (h : 0 < x.e) (h' : x.e < 63) :
    (fpTrunc x).e = x.e ∧ (fpTrunc x).mi = x.mi.tdiv (truncUnit x) * truncUnit x := by
  have hr := tdiv_mul_range truncUnit_pos (truncUnit_le h) (mi_range x)
  have hmask : fpTrunc x = narrow (x.mi.tdiv (truncUnit x) * truncUnit x) x.e := by
    rw [fpTrunc, if_neg (by omega), if_neg (by omega), ← mask_eq_tdiv_mul truncUnit_pos]
    rfl
  rw [hmask]
  exact ⟨narrow_e _ _, narrow_mi _ _ hr.1 hr.2⟩

end

/-- Settles O53: one clause for each case of truncate. -/
theorem truncateIsTowardZero : Obligations.TruncateIsTowardZero := fun _ =>
  ⟨fpTrunc_of_le_zero, fpTrunc_of_ge, fpTrunc_of_between⟩

/-! ## The exponent test -/

/-- The one mantissa whose magnitude reaches 2^63 is −2^63 (45_truncate.md R130). -/
theorem abs_mi_lt {x : Working} (h : x.mi ≠ -2 ^ 63) : |x.mi| < 2 ^ 63 := by
  obtain ⟨hlo, hhi⟩ := mi_range x
  exact abs_lt.mpr ⟨by omega, hhi⟩

/-- Settles O54: at e = 0 the one magnitude of 2^63 is excluded, and below it the bound is at least 2^64. -/
theorem truncateOfMinusOneIsZero : Obligations.TruncateOfMinusOneIsZero := by
  refine ⟨fpTrunc_of_le_zero le_rfl, fun x he hx => ?_⟩
  rcases he.eq_or_lt with h0 | hneg
  · have hm : x.mi ≠ -2 ^ 63 := fun hm => hx (working_ext (hm.trans (mostNegative_mi 0).symm) h0)
    rw [h0]
    exact abs_mi_lt hm
  · calc |x.mi| ≤ 2 ^ 63 := abs_mi_le x
      _ < 2 ^ (63 - x.e).toNat := pow_lt_pow_right₀ (by decide) (by omega)

/-! ## TRNC of the Y of a TRNC -/

/-- A whole number of units has nothing left to discard (45_truncate.md R131). -/
theorem fpTrunc_idem (x : Working) : fpTrunc (fpTrunc x) = fpTrunc x := by
  rcases le_or_gt x.e 0 with hle | hpos
  · rw [fpTrunc_of_le_zero hle, fpTrunc_of_le_zero le_rfl]
  rcases le_or_gt 63 x.e with hge | hlt
  · rw [fpTrunc_of_ge hge, fpTrunc_of_ge hge]
  · obtain ⟨he, hm⟩ := fpTrunc_of_between hpos hlt
    obtain ⟨he2, hm2⟩ := fpTrunc_of_between (x := fpTrunc x) (by omega) (by omega)
    have hunit : truncUnit (fpTrunc x) = truncUnit x := by rw [truncUnit, truncUnit, he]
    refine working_ext ?_ he2
    rw [hm2, hunit, hm, Int.mul_tdiv_cancel _ truncUnit_pos.ne']

/-- Settles O55: the first TRNC leaves O written and its Y driven, and that Y is a fixed point of truncate. -/
theorem truncateTwiceIsTruncateOnce : Obligations.TruncateTwiceIsTruncateOnce := by
  intro p q xe xe' s t h
  rw [exec, execTrnc] at h
  obtain ⟨a, -, h⟩ := withA_next h
  obtain ⟨v, -, ht⟩ := finish_next h
  have hy : t.y = some (fpTrunc a) := by rw [ht, drive_y]
  have ho : t.o = .written (v || raisesO (fpPack p xe (fpTrunc a)).st) := by rw [ht, drive_o]
  obtain ⟨-, htrnc⟩ := cmplAndTrncDriveTheirResult { t with a := t.y } q xe' _ _ hy ho
  exact ⟨_, htrnc, by rw [fpTrunc_idem, hy]⟩

end Sys2Proof.Machine
end

section
/-! CLRO (46_control.md): its next state from every state, and that no other function makes O zero. -/

namespace Sys2Proof.Machine

/-! ## The next state of CLRO -/

/-- Class and XE do not stand in the next state: CLRO ignores them (46_control.md R134). -/
theorem exec_clro (p : Prec) (xe : Bool) (s : State) :
    exec (.clro p xe) s = .next (drive s (.written false) none none .value) := rfl

theorem exec_clro_next {p : Prec} {xe : Bool} {s t : State} (h : exec (.clro p xe) s = .next t) :
    t = drive s (.written false) none none .value := by
  rw [exec_clro] at h
  cases h
  rfl

/-- A later transaction's outputs and O replace those of an earlier one. -/
@[simp] theorem drive_drive (s : State) (o o' : OFlag) (y y' : Option Working) (po po' : Option (List Word))
    (st st' : Status) : drive (drive s o y po st) o' y' po' st' = drive s o' y' po' st' := rfl

theorem readOV_of_written {s : State} {v : Bool} (ho : s.o = .written v) : readOV s = .ok v := by
  simp [readOV, ho]

/-! ## The ways O comes to be zero -/

/-- An instruction that answers O = 0 is CLRO or found O = 0: the OR of a finishing function is zero only where O
was, and every other function keeps O (10_state.md R19, 46_control.md R134). -/
theorem o_zero_or_clro {i : Instr} {s t : State} (h : exec i s = .next t) (ht : t.o = .written false) :
    s.o = .written false ∨ ∃ p xe, i = .clro p xe := by
  rcases exec_next_by_kind h with ⟨-, v, y, hv, rfl⟩ | ⟨-, -, y, rfl⟩ | ⟨p, xe, rfl, -⟩
  · rw [drive_o, OFlag.written.injEq, Bool.or_eq_false_iff] at ht
    obtain ⟨hfalse, -⟩ := ht
    exact .inl (hfalse ▸ hv)
  · exact .inl ht
  · exact .inr ⟨p, xe, rfl⟩

/-- PREC = 11 is rejected with the function code of CLRO too (30_encoding.md R56). -/
theorem decode_clro_reservedPrec : decode 0x003A = .error .reservedPrec := by
  obtain ⟨-, hprec, -⟩ := decodeRejectsByTheFirstFailedTest 0x003A
  exact hprec.mpr ⟨rfl, rfl⟩

/-- Settles O16: the next state of CLRO is one `drive`, which a second CLRO repeats, and a transaction that leaves
O = 0 without being a CLRO found it so. -/
theorem clroClearsO : Obligations.ClroClearsO := by
  refine ⟨fun s p xe => exec_clro p xe s, fun s t p xe h => ?ovReadsZero, fun i s t h ht hs => ?onlyClro,
    fun s t p q xe xe' h => ?twiceIsOnce, rfl, decode_clro_reservedPrec⟩
  case ovReadsZero => rw [exec_clro_next h, readOV_of_written (drive_o ..)]
  case onlyClro => exact (o_zero_or_clro h ht).resolve_left hs
  case twiceIsOnce => rw [exec_clro_next h, exec_clro, drive_drive]

end Sys2Proof.Machine
end

section
/-! Exceptions and reset (60_exceptions.md R139, R140, R144, R150; 70_reset_and_hazards.md R153, R154): what UNIMPL drives,
what an outcome may depend on, when the pack step overflows and underflows, and what is legal before the first CLRO. -/

namespace Sys2Proof.Machine

/-! ## The control words the spec writes out -/

/-- Settles O3: a legal word is the encoding of its instruction, and a reserved one fails its test of R56 first. -/
theorem decodeOfTheWordsWrittenOut : Obligations.DecodeOfTheWordsWrittenOut := by
  obtain ⟨-, -, hfnB⟩ := decodeRejectsByTheFirstFailedTest 0x001B
  obtain ⟨-, -, hfnF⟩ := decodeRejectsByTheFirstFailedTest 0x001F
  obtain ⟨-, hprec, -⟩ := decodeRejectsByTheFirstFailedTest 0x0034
  obtain ⟨hrsvLow, -, -⟩ := decodeRejectsByTheFirstFailedTest 0x0094
  obtain ⟨hrsvHigh, -, -⟩ := decodeRejectsByTheFirstFailedTest 0x8014
  exact ⟨decode_encode (.unpk .x false), decode_encode (.add .x false), decode_encode (.div .x true),
    decode_encode (.mpy .f false), decode_encode (.trnc .t false), decode_encode (.clro .x false),
    hfnB.mpr (by decide), hfnF.mpr (by decide), hprec.mpr (by decide), hrsvLow.mpr (by decide),
    hrsvHigh.mpr (by decide), decode_encode (.unpk .f false), decode_encode (.clro .t true)⟩

/-! ## UNIMPL -/

theorem exec_st_ne_unimpl {i : Instr} {s t : State} (h : exec i s = .next t) : t.st ≠ some .unimpl := by
  rcases exec_next h with ⟨y, rfl⟩ | ⟨v, y, x, -, rfl⟩ | rfl
  · nofun
  · exact fun hst => fpPack_st_ne_unimpl _ _ _ (Option.some.inj hst)
  · nofun

/-- Settles O6: a reserved word's step is `unimplemented`, and no pack step answers UNIMPL. -/
theorem reservedWordDrivesOnlyUnimpl : Obligations.ReservedWordDrivesOnlyUnimpl :=
  ⟨fun _ _ hw hr => step_of_reservedWord hw hr, fun _ _ _ => exec_st_ne_unimpl⟩

/-! ## What an outcome depends on -/

/-- Where the first outcome is a next state, so is the second, with the same O and outputs. -/
def Follows (r r' : Result) : Prop :=
  ∀ t, r = .next t → ∃ t', r' = .next t' ∧ t'.o = t.o ∧ t'.y = t.y ∧ t'.po = t.po ∧ t'.st = t.st

section
variable {s s' : State}

theorem withA_follows {k k' : Working → Result} (ha : s.a = s'.a) (hk : ∀ a, Follows (k a) (k' a)) :
    Follows (withA s k) (withA s' k') := by
  intro t h
  obtain ⟨a, hs, h⟩ := withA_next h
  rw [withA_of_driven _ (ha ▸ hs)]
  exact hk a t h

theorem withB_follows {k k' : Working → Result} (hb : s.b = s'.b) (hk : ∀ b, Follows (k b) (k' b)) :
    Follows (withB s k) (withB s' k') := by
  intro t h
  obtain ⟨b, hs, h⟩ := withB_next h
  rw [withB_of_driven _ (hb ▸ hs)]
  exact hk b t h

/-- The first n_P words tell whether n_P words are driven, so the words beyond them are no input (log entry 3). -/
theorem withPI_follows {p : Prec} {k k' : List Word → Result} (hpi : s.pi.take (nWords p) = s'.pi.take (nWords p))
    (hk : ∀ ws, Follows (k ws) (k' ws)) : Follows (withPI p s k) (withPI p s' k') := by
  intro t h
  obtain ⟨hlen, h⟩ := withPI_next h
  have hlen' : nWords p ≤ s'.pi.length := by
    have hl := congrArg List.length hpi
    simp only [List.length_take] at hl
    omega
  rw [withPI_of_driven _ hlen', ← hpi]
  exact hk _ t h

theorem completeValue_follows (y : Working) (ho : s.o = s'.o) :
    Follows (completeValue s y) (completeValue s' y) := by
  intro t h
  cases completeValue_next h
  exact ⟨_, rfl, ho.symm, rfl, rfl, rfl⟩

theorem completePacked_follows (k : Packed) (y : Working) (ho : s.o = s'.o) :
    Follows (completePacked s k y) (completePacked s' k y) := by
  intro t h
  obtain ⟨v, hv, rfl⟩ := completePacked_next h
  exact ⟨_, completePacked_of_written k y (ho ▸ hv), rfl, rfl, rfl, rfl⟩

/-- A transaction's outputs and O are a function of what it reads (60_exceptions.md R150). -/
theorem exec_follows {i : Instr} (h : SameInputs i s s') : Follows (exec i s) (exec i s') := by
  obtain ⟨ho, ha, hb, hpi⟩ := h
  cases i with
  | unpk p xe => exact withPI_follows (hpi rfl) fun _ => completeValue_follows _ ho
  | norm p xe | rnd p xe => exact withA_follows (ha rfl) fun _ => completeValue_follows _ ho
  | pack p xe | cmpl p xe | trnc p xe => exact withA_follows (ha rfl) fun _ => completePacked_follows _ _ ho
  | add p xe | sub p xe | mpy p xe | div p xe =>
    exact withA_follows (ha rfl) fun _ => withB_follows (hb rfl) fun _ => completePacked_follows _ _ ho
  | clro p xe =>
    intro t h
    cases exec_clro_next h
    exact ⟨_, rfl, rfl, rfl, rfl, rfl⟩

end

/-- Settles O21: each port read and each completion follows the one from a state with the same inputs. -/
theorem outputsDependOnlyOnInputsRead : Obligations.OutputsDependOnlyOnInputsRead :=
  fun _ _ _ t hs h => exec_follows hs t h

/-! ## Overflow and underflow of the pack step -/

section
variable {p : Prec} {xe : Bool} {x : Working}

theorem fpPack_st_eq_overflow_iff :
    (fpPack p xe x).st = .overflow ↔ (fpRound p x).mi ≠ 0 ∧ eMax xe < (fpRound p x).e := by
  refine ⟨fun hst => ?_, fun ⟨h0, he⟩ => by rw [fpPack_of_overflow h0 he]⟩
  rcases fpPack_cases p xe x with ⟨-, h⟩ | ⟨-, -, h⟩ | ⟨h0, he, -⟩ | ⟨-, -, -, h⟩
  · rw [h] at hst; cases hst
  · rw [h] at hst; cases hst
  · exact ⟨mt (mi_eq_zero_iff _).mp h0, he⟩
  · rw [h] at hst; cases hst

theorem fpPack_st_eq_underflow_iff :
    (fpPack p xe x).st = .underflow ↔ (fpRound p x).mi ≠ 0 ∧ (fpRound p x).e < eMin xe := by
  refine ⟨fun hst => ?_, fun ⟨h0, he⟩ => by rw [fpPack_of_underflow h0 he]⟩
  rcases fpPack_cases p xe x with ⟨-, h⟩ | ⟨h0, he, -⟩ | ⟨-, -, h⟩ | ⟨-, -, -, h⟩
  · rw [h] at hst; cases hst
  · exact ⟨mt (mi_eq_zero_iff _).mp h0, he⟩
  · rw [h] at hst; cases hst
  · rw [h] at hst; cases hst

theorem mi_ne_zero_of_fpRound_mi_ne_zero (h : (fpRound p x).mi ≠ 0) : x.mi ≠ 0 := by
  intro hx
  rw [fpRound_of_zero p ((mi_eq_zero_iff x).mp hx)] at h
  exact h rfl

/-- Round lowers the exponent by at most the 63 doublings of normalize and one renormalization
(41_normalize_round.md R81, R84). -/
theorem fpRound_e_ge (h : (fpRound p x).mi ≠ 0) : x.e - 64 ≤ (fpRound p x).e := by
  have hx := mi_ne_zero_of_fpRound_mi_ne_zero h
  obtain ⟨k, hk, -, hn⟩ := fpNormalize_doublings hx
  rcases fpRound_of_ne_zero p hx rfl rfl with ⟨-, -, hr⟩ | ⟨-, hr⟩ | ⟨-, -, hr⟩ <;> rw [hr, narrow_e] <;> omega

end

/-- The exponent byte of a sentinel (40_codec.md R70, R73). -/
theorem expByte_eMax (xe : Bool) : expByte (eMax xe) = if xe then Config.xePack 511 else 0xFE := by
  cases xe with
  | false => rfl
  | true => exact expByte_of_expanded (by decide)

/-- A status other than VALUE is that of the pack step of Y, and only a finishing function has one
(10_state.md R31). -/
theorem exec_st_eq_iff {i : Instr} {s t : State} {y : Working} {st : Status} (h : exec i s = .next t)
    (hy : t.y = some y) (hst : st ≠ .value) :
    t.st = some st ↔ finishing i = true ∧ (fpPack i.prec i.xe y).st = st := by
  cases hf : finishing i with
  | true =>
    obtain ⟨-, hpack⟩ := packedOutputIsThePackOfY i s t y h hf hy
    rw [hpack, Option.some.injEq, and_iff_right rfl]
  | false =>
    obtain ⟨-, -, -, hvalue, -⟩ := outputsDrivenByEachFunction i s t h
    rw [hvalue hf]
    exact iff_of_false (fun heq => hst (Option.some.inj heq).symm) nofun

theorem exec_o_of_raisesO {i : Instr} {s t : State} {st : Status} (h : exec i s = .next t) (hst : t.st = some st)
    (hr : raisesO st = true) : t.o = .written true := by
  obtain ⟨-, hraised, -⟩ := exec_portsConsistent h
  obtain ⟨ho, -⟩ := hraised st hst hr
  exact ho

/-- Settles O36: the status is that of the pack step of Y, which keeps Y's sign in rounding. -/
theorem overflowClampsToTheSentinelOfYsSign : Obligations.OverflowClampsToTheSentinelOfYsSign := by
  intro i s t y h hy
  have hiff := exec_st_eq_iff (st := .overflow) h hy nofun
  rw [fpPack_st_eq_overflow_iff] at hiff
  refine ⟨hiff, fun hst => ⟨exec_o_of_raisesO h hst rfl, ?_⟩⟩
  obtain ⟨hf, h0, he⟩ := hiff.mp hst
  obtain ⟨hpo, -⟩ := packedOutputIsThePackOfY i s t y h hf hy
  obtain ⟨-, hsign, -⟩ := roundKeepsSignAndBoundsTheExponent i.prec y _ _ (mi_ne_zero_of_fpRound_mi_ne_zero h0) rfl rfl
  rw [fpPack_of_overflow h0 he, decide_eq_decide.mpr hsign] at hpo
  exact ⟨_, hpo, fpEncode_length _ _ _, mantField_fpEncode_sentinel _ _ _,
    (expField_fpEncode _ _ _).trans (expByte_eMax _)⟩

/-- Truncate answers no negative exponent: below its first case the exponent is positive (45_truncate.md R128). -/
theorem fpTrunc_e_nonneg (x : Working) : 0 ≤ (fpTrunc x).e := by
  rcases le_or_gt x.e 0 with hle | hpos
  · rw [fpTrunc_of_le_zero hle]; exact le_rfl
  rcases le_or_gt 63 x.e with hge | hlt
  · rw [fpTrunc_of_ge hge]; omega
  · obtain ⟨he, -⟩ := fpTrunc_of_between hpos hlt
    omega

/-- Rounding lowers an exponent that is not negative by far less than the 128 that would take it below E_MIN
(60_exceptions.md R140). -/
theorem eMin_le_fpRound_fpTrunc (p : Prec) (xe : Bool) {x : Working} (h : (fpRound p (fpTrunc x)).mi ≠ 0) :
    eMin xe ≤ (fpRound p (fpTrunc x)).e := by
  have hmin : eMin xe ≤ -128 := by cases xe <;> decide
  have htrunc := fpTrunc_e_nonneg x
  have hround := fpRound_e_ge h
  omega

/-- Settles O37: the status is that of the pack step of Y, and no Y of TRNC has an exponent that low. -/
theorem underflowForcesExactZero : Obligations.UnderflowForcesExactZero := by
  intro i s t y h hy
  have hiff := exec_st_eq_iff (st := .underflow) h hy nofun
  rw [fpPack_st_eq_underflow_iff] at hiff
  refine ⟨hiff, fun hst => ?_⟩
  obtain ⟨hf, h0, he⟩ := hiff.mp hst
  obtain ⟨hpo, -⟩ := packedOutputIsThePackOfY i s t y h hf hy
  rw [fpPack_of_underflow h0 he] at hpo
  refine ⟨exec_o_of_raisesO h hst rfl, hpo, ?_⟩
  rintro p xe rfl
  rw [exec_trnc_y h] at hy
  obtain ⟨a, -, rfl⟩ := Option.map_eq_some_iff.mp hy
  exact absurd he (not_lt.mpr (eMin_le_fpRound_fpTrunc p xe h0))

/-! ## Reset, and what is legal before the first CLRO -/

/-- A finishing function on driven operands stops at its O update (10_state.md R20). -/
theorem exec_finishing_of_unwritten {i : Instr} {s : State} (hi : finishing i = true) (ho : s.o = .unwritten)
    (ha : s.a ≠ none) (hb : s.b ≠ none) : exec i s = .fault .overflowFlagUnwritten :=
  exec_eq_fault (firstStop_of_unwritten_o hi ho (fun _ => ha) (fun _ => hb))

/-- Settles O7: the ports of the reset state are read off, and O is the first stop of a finishing function there. -/
theorem resetLeavesOUnwrittenAndOutputsUndriven : Obligations.ResetLeavesOUnwrittenAndOutputsUndriven :=
  ⟨rfl, readOV_of_unwritten rfl, rfl, rfl, rfl, fun _ _ _ hi => exec_finishing_of_unwritten hi rfl nofun nofun⟩

/-- A function that neither updates O nor clears it completes on its driven inputs, O staying unwritten
(70_reset_and_hazards.md R154). -/
theorem exec_keeps_o_unwritten {i : Instr} {s : State} (hf : finishing i = false) (hclro : ∀ p xe, i ≠ .clro p xe)
    (ho : s.o = .unwritten) (hready : Ready i s) : ∃ t, exec i s = .next t ∧ t.o = .unwritten := by
  obtain ⟨-, -, hkeep, -⟩ := oAccumulatesOverflowAndUnderflow
  obtain ⟨t, ht⟩ := (exec_completes_iff_ready i s).mpr hready
  exact ⟨t, ht, (hkeep i s t ht hf hclro).trans ho⟩

/-- Settles O9: UNPK, NORM and RND are ready without O, CLRO always, and O is the first stop of the others. -/
theorem legalBeforeTheFirstClro : Obligations.LegalBeforeTheFirstClro := by
  intro s p xe ho
  refine ⟨fun hpi => ?unpk, fun ha => ?norm, fun ha => ?rnd, exec_clro_writes_o p xe s,
    fun i hi ha hb => exec_finishing_of_unwritten hi ho ha hb⟩
  case unpk => exact exec_keeps_o_unwritten rfl nofun ho ⟨nofun, nofun, fun _ => hpi, nofun⟩
  case norm => exact exec_keeps_o_unwritten rfl nofun ho ⟨fun _ => ha, nofun, nofun, nofun⟩
  case rnd => exact exec_keeps_o_unwritten rfl nofun ho ⟨fun _ => ha, nofun, nofun, nofun⟩

/-- Settles O25: at reset no output is driven and there is no status. -/
theorem resetPortsConsistent : Obligations.ResetPortsConsistent :=
  ⟨nofun, nofun, nofun, nofun, fun _ => ⟨rfl, rfl⟩⟩

end Sys2Proof.Machine
end

section
/-! O under the host contract (60_exceptions.md R146; 70_reset_and_hazards.md R156, R158, R159): the terminals of the chained
engine, no set of a chain clears O, and a top-level opcode starts from the O its own CLRO writes. -/

namespace Sys2Proof.Machine

/-! ## The engine over a list of sets -/

theorem runChain_cons_of_return {prm : HostParams} {c : ChainSet} {h h' : HostState} {ret : ChainReturn}
    (cs : List ChainSet) (hs : stepSet prm c h = .ok (some ret, h')) : runChain prm (c :: cs) h = .ok (ret, h') := by
  simp [runChain, hs]

/-- A chain that returns does so at its first set, or goes on from it. -/
theorem runChain_cons_ok {prm : HostParams} {c : ChainSet} {cs : List ChainSet} {h h' : HostState} {ret : ChainReturn}
    (hr : runChain prm (c :: cs) h = .ok (ret, h')) :
    stepSet prm c h = .ok (some ret, h') ∨
    ∃ h1, stepSet prm c h = .ok (none, h1) ∧ runChain prm cs h1 = .ok (ret, h') := by
  unfold runChain at hr
  split at hr
  · cases hr
  · next hs => cases hr; exact .inl hs
  · next h1 hs => exact .inr ⟨h1, hs, hr⟩

/-! ## The terminals -/

theorem stepSet_of_sentinel {prm : HostParams} {c : ChainSet} (h : HostState) (hop : c.op = none) :
    stepSet prm c h = .ok (some .good, h) := by
  simp [stepSet, hop]

theorem stepSet_of_mismatch {prm : HostParams} {c : ChainSet} {op : ArithOp} {p : Prec} (h : HostState)
    (hop : c.op = some (op, p)) (hm : setMismatch p c = true) : stepSet prm c h = .ok (some .error, h) := by
  simp [stepSet, hop, hm]

theorem countMismatch_iff (p : Prec) (n : Nat) : countMismatch p n = true ↔ n ≠ 0 ∧ n ≠ nWords p := by
  simp [countMismatch]

theorem setMismatch_iff (p : Prec) (c : ChainSet) :
    setMismatch p c = true ↔ (c.count1 ≠ 0 ∧ c.count1 ≠ nWords p) ∨ (c.count2 ≠ 0 ∧ c.count2 ≠ nWords p) ∨
      (c.resultCount ≠ 0 ∧ c.resultCount ≠ nWords p) := by
  simp only [setMismatch, Bool.or_eq_true, countMismatch_iff, or_assoc]

/-- Settles O57: a terminal set returns with the host state it was given. -/
theorem chainTerminalsIssueNoTransaction : Obligations.ChainTerminalsIssueNoTransaction := fun _ c cs h =>
  ⟨fun hop => runChain_cons_of_return cs (stepSet_of_sentinel h hop),
    fun _ p hop hm => runChain_cons_of_return cs (stepSet_of_mismatch h hop ((setMismatch_iff p c).mpr hm))⟩

/-! ## O across the sets of a chain -/

theorem exec_keeps_o_set {i : Instr} {s t : State} (h : exec i s = .next t) (hclro : ∀ p xe, i ≠ .clro p xe)
    (ho : s.o = .written true) : t.o = .written true := by
  rcases exec_next_by_kind h with ⟨-, v, y, hv, rfl⟩ | ⟨-, -, y, rfl⟩ | ⟨p, xe, rfl, -⟩
  · obtain rfl : v = true := OFlag.written.inj (hv.symm.trans ho)
    exact congrArg OFlag.written (Bool.true_or _)
  · exact ho
  · exact absurd rfl (hclro p xe)

/-- The host's transactions but CLRO leave O = 1 as it is (10_state.md R19). -/
theorem issue_keeps_o_set {i : Instr} {a b : Option Working} {pi : List Word} {h h' : HostState}
    (hi : issue (transaction i a b pi) h = .ok h') (hclro : ∀ p xe, i ≠ .clro p xe)
    (ho : h.fpau.o = .written true) : h'.fpau.o = .written true :=
  exec_keeps_o_set (issue_transaction_ok hi) hclro ho

theorem arithInstr_ne_clro (op : ArithOp) (p q : Prec) (xe xe' : Bool) : arithInstr op p xe ≠ .clro q xe' := by
  cases op <;> nofun

section
variable {prm : HostParams} {op : ArithOp} {p : Prec} {h h' : HostState}

theorem fetchOperand_keeps_o_set {r : OperandRef} {x : Working} (hf : fetchOperand prm p r h = .ok (x, h'))
    (ho : h.fpau.o = .written true) : h'.fpau.o = .written true := by
  cases r with
  | accumulator => cases hf; exact ho
  | memory w =>
    obtain ⟨base, -, hf⟩ := except_bind_ok hf
    obtain ⟨ws, -, hf⟩ := except_bind_ok hf
    obtain ⟨h1, hi, hf⟩ := except_bind_ok hf
    obtain ⟨y, -, hf⟩ := except_bind_ok hf
    cases hf
    exact issue_keeps_o_set hi nofun ho

theorem fetchSecond_keeps_o_set {r : OperandRef} {x : Option Working} (hf : fetchSecond prm op p r h = .ok (x, h'))
    (ho : h.fpau.o = .written true) : h'.fpau.o = .written true := by
  unfold fetchSecond at hf
  split at hf
  · obtain ⟨⟨b, h1⟩, hfetch, hf⟩ := except_bind_ok hf
    cases hf
    exact fetchOperand_keeps_o_set hfetch ho
  · cases hf; exact ho

theorem executeArith_keeps_o_set {a : Working} {b : Option Working} {po : List Word}
    (he : executeArith op p a b h = .ok (po, h')) (ho : h.fpau.o = .written true) : h'.fpau.o = .written true := by
  obtain ⟨h1, hi, he⟩ := except_bind_ok he
  obtain ⟨po', -, he⟩ := except_bind_ok he
  cases he
  rw [setAcc_fpau]
  exact issue_keeps_o_set hi (arithInstr_ne_clro op p · h.modifier) ho

theorem convertResult_keeps_o_set {target : Option Prec} {po po' : List Word}
    (hc : convertResult p target po h = .ok (po', h')) (ho : h.fpau.o = .written true) :
    h'.fpau.o = .written true := by
  cases target with
  | none => cases hc; exact ho
  | some q =>
    obtain ⟨h1, hi, hc⟩ := except_bind_ok hc
    obtain ⟨po1, -, hc⟩ := except_bind_ok hc
    cases hc
    rw [setAcc_fpau]
    exact issue_keeps_o_set hi nofun ho

theorem storeResult_fpau {c : ChainSet} {po : List Word} (hs : storeResult prm c po h = .ok h') :
    h'.fpau = h.fpau := by
  rcases storeResult_ok hs with ⟨-, rfl⟩ | ⟨-, dst, -, rfl⟩ <;> rfl

theorem runSet_keeps_o_set {c : ChainSet} (hr : runSet prm op p c h = .ok h') (ho : h.fpau.o = .written true) :
    h'.fpau.o = .written true := by
  obtain ⟨⟨a, h1⟩, hfetch, hr⟩ := except_bind_ok hr
  obtain ⟨⟨b, h2⟩, hsecond, hr⟩ := except_bind_ok hr
  obtain ⟨⟨po, h3⟩, hexec, hr⟩ := except_bind_ok hr
  obtain ⟨⟨po', h4⟩, hconv, hstore⟩ := except_bind_ok hr
  have ho1 := fetchOperand_keeps_o_set hfetch ho
  have ho2 := fetchSecond_keeps_o_set hsecond ho1
  have ho3 := executeArith_keeps_o_set hexec ho2
  have ho4 := convertResult_keeps_o_set hconv ho3
  rwa [storeResult_fpau hstore]

theorem stepSet_keeps_o_set {c : ChainSet} {ret : Option ChainReturn} (hs : stepSet prm c h = .ok (ret, h'))
    (ho : h.fpau.o = .written true) : h'.fpau.o = .written true := by
  rcases stepSet_ok hs with ⟨-, -, rfl⟩ | ⟨_, _, -, -, -, rfl⟩ | ⟨_, _, -, -, -, hr⟩
  · exact ho
  · exact ho
  · exact runSet_keeps_o_set hr ho

end

/-- Settles O58, by induction on the sets: no transaction of a set is a CLRO. -/
theorem chainNeverClearsO : Obligations.ChainNeverClearsO := by
  intro prm cs
  induction cs with
  | nil =>
    intro h h' ret hr
    rw [runChain] at hr
    exact nomatch hr
  | cons c cs ih =>
    intro h h' ret hr ho
    rcases runChain_cons_ok hr with hs | ⟨h1, hs, hr⟩
    · exact stepSet_keeps_o_set hs ho
    · exact ih h1 h' ret hr (stepSet_keeps_o_set hs ho)

/-! ## O at the start and at the end of a top-level opcode -/

/-- The host's transaction of an instruction that completes leaves the FPAU in its next state (10_state.md R29). -/
theorem issue_transaction_of_next {i : Instr} {a b : Option Working} {pi : List Word} {h : HostState} {s : State}
    (he : exec i (present (transaction i a b pi) h.fpau) = .next s) :
    issue (transaction i a b pi) h = .ok { h with fpau := s } := by
  have hs : step (present (transaction i a b pi) h.fpau) = .next s :=
    (step_of_decode rfl (decode_encode i)).trans he
  simp [issue, hs]

/-- The CLRO of a top-level opcode leaves of the FPAU what its transaction and CLRO drive (70_reset_and_hazards.md
R156). -/
theorem beginOpcode_eq (h : HostState) : beginOpcode h = .ok { h with
    fpau := drive (present (transaction (.clro .x false) none none []) h.fpau) (.written false) none none .value } :=
  issue_transaction_of_next (exec_clro _ _ _)

/-- CLRO writes O whatever it was (46_control.md R134). -/
theorem beginOpcode_of_any_o (h : HostState) (f : OFlag) :
    beginOpcode { h with fpau := { h.fpau with o := f } } = beginOpcode h := by
  rw [beginOpcode_eq, beginOpcode_eq]
  rfl

/-- All that an opcode does comes after its CLRO. -/
theorem arithOpcode_congr {prm : HostParams} {op : ArithOp} {p : Prec} {r1 r2 : OperandRef} {dest : ResultRef}
    {h g : HostState} (hb : beginOpcode g = beginOpcode h) :
    arithOpcode prm op p r1 r2 dest g = arithOpcode prm op p r1 r2 dest h := by
  rw [arithOpcode, arithOpcode, hb]

/-- Settles O59: the opcode begins with a CLRO, which forgets O, and ends by copying O to the status bit. -/
theorem arithOpcodeDoesNotDependOnTheEarlierO : Obligations.ArithOpcodeDoesNotDependOnTheEarlierO := by
  intro prm op p r1 r2 dest h h' f hrun
  refine ⟨(arithOpcode_congr (beginOpcode_of_any_o h f)).trans hrun, ?_⟩
  obtain ⟨h1, -, hrun⟩ := except_bind_ok hrun
  obtain ⟨⟨a, h2⟩, -, hrun⟩ := except_bind_ok hrun
  obtain ⟨⟨b, h3⟩, -, hrun⟩ := except_bind_ok hrun
  obtain ⟨⟨po, h4⟩, -, hrun⟩ := except_bind_ok hrun
  obtain ⟨h5, -, hend⟩ := except_bind_ok hrun
  obtain ⟨v, hv, rfl⟩ := endOpcode_ok hend
  exact ⟨hv, rfl⟩

end Sys2Proof.Machine
end
